-- ==== Sys2Proof/Word.lean ====
section
/-! DEFINITION. The unit of data of the core, the byte, and its fixed-size groups: the block (16 bytes), the
word of the key schedule (4 bytes, never an integer) and the 32-bit value of a control register
(spec/00_scope.md section 6, spec/20_memory.md R40 and R41). -/

namespace Sys2Proof

/-- The unit of data (20_memory.md R40). -/
abbrev Byte := BitVec 8

/-- The value of a control register, read and written whole (20_memory.md R41(d), R49). -/
abbrev Word32 := BitVec 32

/-- A byte sequence of length exactly 16, byte 0 first (00_scope.md section 6). -/
abbrev Block := Vector Byte 16

/-- A word of the key schedule: a sequence of exactly 4 bytes, never an integer (20_memory.md R41(c)). -/
abbrev KeyWord := Vector Byte 4

/-- `zeros(n)`: n bytes of 0x00 (00_scope.md section 6). -/
def zeros (n : Nat) : List Byte := List.replicate n 0#8

/-- `zeros(16)` as a block. -/
def zeroBlock : Block := Vector.replicate 16 0#8

/-- The 4-byte word of zeros. -/
def zeroWord : KeyWord := Vector.replicate 4 0#8

end Sys2Proof
end

