-- ==== Sys2Proof/Syntax.lean ====
section
/-! DEFINITION. The fifteen commands of the core, one constructor per row of spec/opcode_table.json, with the operand
fields the row has (spec/30_encoding.md R69), and format C, the one format of a command word (R60). -/

namespace Sys2Proof

/-- A command. `nopad` is bit 7 (NOPAD), `ivs` bit 8 (IVS), `bs` bits 23:16 (BS) of the command word
(30_encoding.md R60, R63, R64, R65). A bit that is a don't-care of a command is kept, since both values are legal
(R63, R64, R68). -/
inductive Instr where
  /-- EXPAND, 41_key_schedule.md R100 -/
  | expand
  /-- ENCB, 42_block_transform.md R130 -/
  | encb
  /-- DECB, 42_block_transform.md R131 -/
  | decb
  /-- ENC.ECB, 43_modes.md R160 -/
  | encEcb (nopad ivs : Bool)
  /-- DEC.ECB, 43_modes.md R161 -/
  | decEcb (nopad ivs : Bool)
  /-- ENC.CBC, 43_modes.md R162 -/
  | encCbc (nopad ivs : Bool)
  /-- DEC.CBC, 43_modes.md R163 -/
  | decCbc (nopad ivs : Bool)
  /-- ENC.CFB, 43_modes.md R164 -/
  | encCfb (nopad ivs : Bool)
  /-- DEC.CFB, 43_modes.md R165 -/
  | decCfb (nopad ivs : Bool)
  /-- ENC.OFB, 43_modes.md R166 -/
  | encOfb (nopad ivs : Bool)
  /-- DEC.OFB, 43_modes.md R167 -/
  | decOfb (nopad ivs : Bool)
  /-- ENC.CTR, 43_modes.md R168 -/
  | encCtr (nopad ivs : Bool)
  /-- DEC.CTR, 43_modes.md R169 -/
  | decCtr (nopad ivs : Bool)
  /-- PAD, 44_padding.md R192 -/
  | pad (bs : BitVec 8)
  /-- UNPAD, 44_padding.md R193 -/
  | unpad (bs : BitVec 8)
  deriving DecidableEq, Repr

/-- The fields of format C, every bit of the command word in exactly one of them (30_encoding.md R60). -/
structure FormatC where
  /-- bits 3:0 -/
  op : BitVec 4
  /-- bits 6:4 -/
  mode : BitVec 3
  /-- bit 7 -/
  nopad : Bool
  /-- bit 8 -/
  ivs : Bool
  /-- bits 15:9, reserved -/
  reservedLow : BitVec 7
  /-- bits 23:16 -/
  bs : BitVec 8
  /-- bits 31:24, reserved -/
  reservedHigh : BitVec 8
  deriving DecidableEq, Repr

end Sys2Proof
end

