-- ==== Sys2Proof/WellFormed.lean ====
section
/-! DEFINITION. Which command words are well formed (spec/30_encoding.md R66) and which commands the assembler of R70
may write. A term of `Instr` cannot be ill formed: its fields have exactly the widths of the encoding, so its 555
terms are the 555 legal words. What can be ill formed is the record of fields of an arbitrary word: one check below
for each clause of R66. -/

namespace Sys2Proof

/-- R66(a): a reserved bit is set. -/
def FormatC.reservedSet (f : FormatC) : Bool := f.reservedLow != 0 || f.reservedHigh != 0

/-- R66(b): OP is 0x0 or 0x8 to 0xF. -/
def FormatC.opReserved (f : FormatC) : Bool := f.op == 0 || 8 ≤ f.op.toNat

/-- OP is ENC or DEC (R61). -/
def FormatC.isModeCommand (f : FormatC) : Bool := f.op == 4 || f.op == 5

/-- OP is PAD or UNPAD (R61). -/
def FormatC.isPadCommand (f : FormatC) : Bool := f.op == 6 || f.op == 7

/-- R66(c): OP is ENC or DEC and MODE is 5, 6 or 7. -/
def FormatC.modeReserved (f : FormatC) : Bool := f.isModeCommand && 5 ≤ f.mode.toNat

/-- R66(d): OP is not ENC or DEC and MODE is not 0. -/
def FormatC.modeOutOfPlace (f : FormatC) : Bool := !f.isModeCommand && f.mode != 0

/-- R66(e): OP is not ENC or DEC and NOPAD or IVS is set. -/
def FormatC.optionOutOfPlace (f : FormatC) : Bool := !f.isModeCommand && (f.nopad || f.ivs)

/-- R66(f): OP is not PAD or UNPAD and BS is not 0. -/
def FormatC.blockSizeOutOfPlace (f : FormatC) : Bool := !f.isPadCommand && f.bs != 0

/-- A word is legal when none of the clauses (a) to (f) of R66 holds. -/
def FormatC.legal (f : FormatC) : Bool :=
  !(f.reservedSet || f.opReserved || f.modeReserved || f.modeOutOfPlace || f.optionOutOfPlace ||
    f.blockSizeOutOfPlace)

/-- What the assembler may write (R70): NOPAD only on ECB and CBC commands, IV only on CBC, CFB, OFB and CTR commands;
it never sets a don't-care bit. Every other legal command can still be written to CMD as a number. -/
def Instr.assemblerForm : Instr → Bool
  | .expand => true
  | .encb => true
  | .decb => true
  | .encEcb _ ivs => !ivs
  | .decEcb _ ivs => !ivs
  | .encCbc _ _ => true
  | .decCbc _ _ => true
  | .encCfb nopad _ => !nopad
  | .decCfb nopad _ => !nopad
  | .encOfb nopad _ => !nopad
  | .decOfb nopad _ => !nopad
  | .encCtr nopad _ => !nopad
  | .decCtr nopad _ => !nopad
  | .pad _ => true
  | .unpad _ => true

end Sys2Proof
end

