-- ==== Sys2Proof/Decode.lean ====
section
/-! DEFINITION. Decoding a command word (spec/30_encoding.md R68), total, rejecting by name, and encoding a command from
the same tables (R60 to R65, R69). -/

namespace Sys2Proof

/-- Why a word names no command: the clause of R66 that R68 meets first. Log 12: the clause is the model's name for
the rejection; the core records only IllegalCommand. -/
inductive IllegalWord where
  /-- R66(a) -/
  | reservedBits
  /-- R66(b) -/
  | badOperation
  /-- R66(c) -/
  | badMode
  /-- R66(d) -/
  | modeOutOfPlace
  /-- R66(e) -/
  | optionOutOfPlace
  /-- R66(f) -/
  | blockSizeOutOfPlace
  deriving DecidableEq, Repr

/-- The fields of a command word (R60). -/
def splitC (c : Word32) : FormatC where
  op := c.extractLsb' 0 4
  mode := c.extractLsb' 4 3
  nopad := c.getLsbD 7
  ivs := c.getLsbD 8
  reservedLow := c.extractLsb' 9 7
  bs := c.extractLsb' 16 8
  reservedHigh := c.extractLsb' 24 8

/-- The command word with the given fields (R60). -/
def joinC (f : FormatC) : Word32 :=
  f.reservedHigh ++ f.bs ++ f.reservedLow ++ BitVec.ofBool f.ivs ++ BitVec.ofBool f.nopad ++ f.mode ++ f.op

/-- A command without options: MODE, NOPAD, IVS and BS must be 0 (R68, operations 1 to 3). -/
def decodePlain (f : FormatC) (i : Instr) : Except IllegalWord Instr :=
  if f.mode ≠ 0 then .error .modeOutOfPlace
  else if f.nopad || f.ivs then .error .optionOutOfPlace
  else if f.bs ≠ 0 then .error .blockSizeOutOfPlace
  else .ok i

/-- ENC and DEC: BS must be 0 and MODE selects one of five commands (R62; R68, operations 4 and 5). -/
def decodeMode (f : FormatC) (ecb cbc cfb ofb ctr : Bool → Bool → Instr) : Except IllegalWord Instr :=
  if f.bs ≠ 0 then .error .blockSizeOutOfPlace
  else
    match f.mode.toNat with
    | 0 => .ok (ecb f.nopad f.ivs)
    | 1 => .ok (cbc f.nopad f.ivs)
    | 2 => .ok (cfb f.nopad f.ivs)
    | 3 => .ok (ofb f.nopad f.ivs)
    | 4 => .ok (ctr f.nopad f.ivs)
    | _ => .error .badMode

/-- PAD and UNPAD: MODE, NOPAD and IVS must be 0 (R68, operations 6 and 7). -/
def decodePad (f : FormatC) (i : BitVec 8 → Instr) : Except IllegalWord Instr :=
  if f.mode ≠ 0 then .error .modeOutOfPlace
  else if f.nopad || f.ivs then .error .optionOutOfPlace
  else .ok (i f.bs)

/-- R68 on the fields of a word; the operations are numbered by R61. -/
def decodeFields (f : FormatC) : Except IllegalWord Instr :=
  if f.reservedSet then .error .reservedBits
  else
    match f.op.toNat with
    | 1 => decodePlain f .expand
    | 2 => decodePlain f .encb
    | 3 => decodePlain f .decb
    | 4 => decodeMode f .encEcb .encCbc .encCfb .encOfb .encCtr
    | 5 => decodeMode f .decEcb .decCbc .decCfb .decOfb .decCtr
    | 6 => decodePad f .pad
    | 7 => decodePad f .unpad
    | _ => .error .badOperation

/-- R68: the command a 32-bit word names, or why it names none. -/
def decode (c : Word32) : Except IllegalWord Instr := decodeFields (splitC c)

/-- The word of a command without options. -/
def plainFields (op : BitVec 4) : FormatC where
  op := op
  mode := 0
  nopad := false
  ivs := false
  reservedLow := 0
  bs := 0
  reservedHigh := 0

/-- The word of an ENC or DEC command. -/
def modeFields (op : BitVec 4) (mode : BitVec 3) (nopad ivs : Bool) : FormatC :=
  { plainFields op with mode := mode, nopad := nopad, ivs := ivs }

/-- The word of a PAD or UNPAD command. -/
def padFields (op : BitVec 4) (bs : BitVec 8) : FormatC := { plainFields op with bs := bs }

/-- The fields of a command, from R61 (operations), R62 (modes) and R60 (places). -/
def Instr.fields : Instr → FormatC
  | .expand => plainFields 1
  | .encb => plainFields 2
  | .decb => plainFields 3
  | .encEcb nopad ivs => modeFields 4 0 nopad ivs
  | .decEcb nopad ivs => modeFields 5 0 nopad ivs
  | .encCbc nopad ivs => modeFields 4 1 nopad ivs
  | .decCbc nopad ivs => modeFields 5 1 nopad ivs
  | .encCfb nopad ivs => modeFields 4 2 nopad ivs
  | .decCfb nopad ivs => modeFields 5 2 nopad ivs
  | .encOfb nopad ivs => modeFields 4 3 nopad ivs
  | .decOfb nopad ivs => modeFields 5 3 nopad ivs
  | .encCtr nopad ivs => modeFields 4 4 nopad ivs
  | .decCtr nopad ivs => modeFields 5 4 nopad ivs
  | .pad bs => padFields 6 bs
  | .unpad bs => padFields 7 bs

/-- The command word of a command. -/
def encode (i : Instr) : Word32 := joinC i.fields

/-- The mnemonic of a command, as opcode_table.json spells it (R69). -/
def Instr.mnemonic : Instr → String
  | .expand => "EXPAND"
  | .encb => "ENCB"
  | .decb => "DECB"
  | .encEcb _ _ => "ENC.ECB"
  | .decEcb _ _ => "DEC.ECB"
  | .encCbc _ _ => "ENC.CBC"
  | .decCbc _ _ => "DEC.CBC"
  | .encCfb _ _ => "ENC.CFB"
  | .decCfb _ _ => "DEC.CFB"
  | .encOfb _ _ => "ENC.OFB"
  | .decOfb _ _ => "DEC.OFB"
  | .encCtr _ _ => "ENC.CTR"
  | .decCtr _ _ => "DEC.CTR"
  | .pad _ => "PAD"
  | .unpad _ => "UNPAD"

/-- A row of the opcode map of R69: a word c names the command exactly when `(c & mask) == match`. -/
structure OpcodeRow where
  mnemonic : String
  pattern : Word32
  mask : Word32
  deriving DecidableEq, Repr

/-- The opcode map, row by row as R69 prints it. -/
def opcodeMap : List OpcodeRow := [
  ⟨"EXPAND", 0x00000001, 0xFFFFFFFF⟩,
  ⟨"ENCB", 0x00000002, 0xFFFFFFFF⟩,
  ⟨"DECB", 0x00000003, 0xFFFFFFFF⟩,
  ⟨"ENC.ECB", 0x00000004, 0xFFFFFE7F⟩,
  ⟨"DEC.ECB", 0x00000005, 0xFFFFFE7F⟩,
  ⟨"ENC.CBC", 0x00000014, 0xFFFFFE7F⟩,
  ⟨"DEC.CBC", 0x00000015, 0xFFFFFE7F⟩,
  ⟨"ENC.CFB", 0x00000024, 0xFFFFFE7F⟩,
  ⟨"DEC.CFB", 0x00000025, 0xFFFFFE7F⟩,
  ⟨"ENC.OFB", 0x00000034, 0xFFFFFE7F⟩,
  ⟨"DEC.OFB", 0x00000035, 0xFFFFFE7F⟩,
  ⟨"ENC.CTR", 0x00000044, 0xFFFFFE7F⟩,
  ⟨"DEC.CTR", 0x00000045, 0xFFFFFE7F⟩,
  ⟨"PAD", 0x00000006, 0xFF00FFFF⟩,
  ⟨"UNPAD", 0x00000007, 0xFF00FFFF⟩]

/-- The instruction the decoder reads from a word numbered as opcode_table.json numbers it: bit 0 is bit 0 of the
command word, the bits from nbits up are 0. A command is one word, written whole to CMD, and has no byte order
(20_memory.md R41(d)). -/
def decodeTableWord (nbits w : Nat) : Option Instr :=
  let v := w % 2 ^ nbits
  if v < 2 ^ 32 then
    match decode (BitVec.ofNat 32 v) with
    | .ok i => some i
    | .error _ => none
  else none

end Sys2Proof
end

