-- ==== Sys2Proof/Machine/Gf256.lean ====
section
/-! DEFINITION. Arithmetic in GF(2^8) and the constant tables SBOX, INVSBOX and RCON (spec/40_gf256.md R80 to R91). None
of these functions reads or writes state. -/

namespace Sys2Proof.Machine

/-- Field addition (R80). -/
def gadd (a b : Byte) : Byte := a ^^^ b

/-- Multiplication by x, with the reduction polynomial 0x11B (R81, its second form). -/
def xtime (a : Byte) : Byte := (a <<< 1) ^^^ (if a.getLsbD 7 then 0x1B#8 else 0x00#8)

/-- `n` turns of the loop of R82, from the current a, b and p. -/
def gmulLoop : Nat → Byte → Byte → Byte → Byte
  | 0, _, _, p => p
  | n + 1, a, b, p => gmulLoop n (xtime a) (b >>> 1) (if b.getLsbD 0 then p ^^^ a else p)

/-- Multiplication in the field, by shift and conditional XOR (R82). -/
def gmul (a b : Byte) : Byte := gmulLoop 8 a b 0x00#8

/-- The bytes 0x00 to 0xFF in order. -/
def allBytes : List Byte := (List.range 256).map (BitVec.ofNat 8)

/-- The multiplicative inverse, with ginv(0) = 0 (R85). -/
def ginv (a : Byte) : Byte :=
  if a = 0x00#8 then 0x00#8 else (allBytes.find? fun b => gmul a b = 0x01#8).getD 0x00#8

/-- The rule that generates SBOX (R86). -/
def sboxRule (a : Byte) : Byte :=
  let b := ginv a
  b ^^^ b.rotateLeft 1 ^^^ b.rotateLeft 2 ^^^ b.rotateLeft 3 ^^^ b.rotateLeft 4 ^^^ 0x63#8

/-- The S-box, one row of the table of R88 a line, column x0 first. -/
def sboxRows : List (BitVec 128) := [
  0x637c777bf26b6fc53001672bfed7ab76,
  0xca82c97dfa5947f0add4a2af9ca472c0,
  0xb7fd9326363ff7cc34a5e5f171d83115,
  0x04c723c31896059a071280e2eb27b275,
  0x09832c1a1b6e5aa0523bd6b329e32f84,
  0x53d100ed20fcb15b6acbbe394a4c58cf,
  0xd0efaafb434d338545f9027f503c9fa8,
  0x51a3408f929d38f5bcb6da2110fff3d2,
  0xcd0c13ec5f974417c4a77e3d645d1973,
  0x60814fdc222a908846eeb814de5e0bdb,
  0xe0323a0a4906245cc2d3ac629195e479,
  0xe7c8376d8dd54ea96c56f4ea657aae08,
  0xba78252e1ca6b4c6e8dd741f4bbd8b8a,
  0x703eb5664803f60e613557b986c11d9e,
  0xe1f8981169d98e949b1e87e9ce5528df,
  0x8ca1890dbfe6426841992d0fb054bb16]

/-- The inverse S-box, one row of the table of R89 a line, column x0 first. -/
def invSboxRows : List (BitVec 128) := [
  0x52096ad53036a538bf40a39e81f3d7fb,
  0x7ce339829b2fff87348e4344c4dee9cb,
  0x547b9432a6c2233dee4c950b42fac34e,
  0x082ea16628d924b2765ba2496d8bd125,
  0x72f8f66486689816d4a45ccc5d65b692,
  0x6c704850fdedb9da5e154657a78d9d84,
  0x90d8ab008cbcd30af7e45805b8b34506,
  0xd02c1e8fca3f0f02c1afbd0301138a6b,
  0x3a9111414f67dcea97f2cfcef0b4e673,
  0x96ac7422e7ad3585e2f937e81c75df6e,
  0x47f11a711d29c5896fb7620eaa18be1b,
  0xfc563e4bc6d279209adbc0fe78cd5af4,
  0x1fdda8338807c731b11210592780ec5f,
  0x60517fa919b54a0d2de57a9f93c99cef,
  0xa0e03b4dae2af5b0c8ebbb3c83539961,
  0x172b047eba77d626e169146355210c7d]

/-- Entry `16*row + col` of a table of sixteen rows (R88, R89). -/
def tableEntry (rows : List (BitVec 128)) (a : Byte) : Byte :=
  (rows.getD (a.toNat / 16) 0).extractLsb' (8 * (15 - a.toNat % 16)) 8

/-- `SBOX[a]` (R88). -/
def sbox (a : Byte) : Byte := tableEntry sboxRows a

/-- `INVSBOX[a]` (R89). -/
def invSbox (a : Byte) : Byte := tableEntry invSboxRows a

/-- `RCON[1]` to `RCON[10]` (R90). -/
def rconTable : List Byte := [0x01, 0x02, 0x04, 0x08, 0x10, 0x20, 0x40, 0x80, 0x1b, 0x36]

/-- `RCON[j]`, for j = 1 to 10, the only indices the key schedule uses (R90, 41_key_schedule.md R104). -/
def rcon (j : Nat) : Byte := rconTable.getD (j - 1) 0x00#8

/-- `xorb(a, b)` on two blocks (R84). -/
def xorBlock (a b : Block) : Block := Vector.ofFn fun i => a[i] ^^^ b[i]

/-- `w ^ v` on two words of the key schedule (41_key_schedule.md R103). -/
def xorWord (w v : KeyWord) : KeyWord := Vector.ofFn fun i => w[i] ^^^ v[i]

/-- The block whose byte i is byte i of the sequence; every caller passes 16 bytes. -/
def blockOf (l : List Byte) : Block := Vector.ofFn fun i => l.getD i.val 0x00#8

end Sys2Proof.Machine
end

