-- ==== Sys2Proof/Config.lean ====
section
/-! DEFINITION. What the spec leaves to the implementation or leaves unspecified: the capacity DCAP
(spec/00_scope.md R5) and the contents of DIN and DOUT after reset (spec/93_implementation_defined.md U9).
The constants have no body: a claim about the model holds for every value of them. -/

namespace Sys2Proof

/-- How far DCAP lies above its lower bound, before the upper bound is applied. Log 1: left open by the spec. -/
opaque Config.dcapAbove64 : Nat

/-- `DCAP`, the capacity of DIN in bytes: any value with 64 <= DCAP <= 0x3FFFFF00 (00_scope.md R5, U12). Log 1. -/
def Config.dcap : Nat := min Config.dcapAbove64 (0x3FFFFF00 - 64) + 64

/-- `OCAP`, the capacity of DOUT in bytes: DCAP + 255 (00_scope.md R5). -/
def Config.ocap : Nat := Config.dcap + 255

/-- `Config.dinResetByte k i`: the unspecified value that byte i of DIN takes at power-on (k = 0) or at the k-th reset
event after it (10_state.md R21, 70_reset_and_hazards.md R230, U9: every byte independently). Log 2: a free value. -/
opaque Config.dinResetByte : Nat → Nat → Byte

/-- The same for byte i of DOUT (10_state.md R22, U9). Log 2: a free value. -/
opaque Config.doutResetByte : Nat → Nat → Byte

end Sys2Proof
end

