-- ==== Sys2Proof/Machine/State.lean ====
section
/-! DEFINITION. The state of the core (spec/10_state.md R10 to R29), the host transactions that drive it
(spec/20_memory.md R48, R49, R52; spec/70_reset_and_hazards.md R230), the error kinds (spec/60_exceptions.md R200),
why a step can stop, and the state after reset. -/

namespace Sys2Proof.Machine

/-- The error kinds a command can raise (60_exceptions.md R200); code 0, OK, is the absence of an error. -/
inductive ErrorKind where
  /-- code 1, R201 -/
  | invalidKeySize
  /-- code 2, R202 -/
  | invalidBlockSize
  /-- code 3, R204 -/
  | misalignedLength
  /-- code 4, R207 -/
  | invalidPadding
  /-- code 5, R205 -/
  | illegalCommand
  /-- code 6, R206 -/
  | noKeySchedule
  deriving DecidableEq, Repr

/-- Why the machine stops with a fault: it never does. Every command ends in a success or in an error that leaves the
core usable, and no behaviour is stuck (60_exceptions.md R222, R223; 93_implementation_defined.md part 1). -/
inductive Fault where
  deriving DecidableEq, Repr

/-- Why a step is not taken. -/
inductive Refusal where
  /-- Raised by an arm of `exec` whose command has no meaning yet; no arm does. Safe: the model stops. -/
  | notModelled (mnemonic : String)
  /-- Raised by a host access that is not a transaction of the interface (20_memory.md R52: "A model must refuse such an
  access (give it no step)"). Log 5. Safe: the model stops where a physical bus goes on somehow. -/
  | notATransaction
  deriving DecidableEq, Repr

/-- What the host can do to the core (20_memory.md R48, R49; 70_reset_and_hazards.md R230), and the accesses that are
not transactions whatever their address (20_memory.md R52). -/
inductive HostTxn where
  /-- HostRead8(a), R48 -/
  | read8 (a : Word32)
  /-- HostWrite8(a, b), R48 -/
  | write8 (a : Word32) (b : Byte)
  /-- HostRead32(a), R49 -/
  | read32 (a : Word32)
  /-- HostWrite32(a, v), R49; to CMD it executes the command v -/
  | write32 (a v : Word32)
  /-- RESET, R230 -/
  | reset
  /-- An access of a width that is neither 8 nor 32 bits, R52 -/
  | otherWidth (bits : Nat) (a : Word32)
  deriving DecidableEq, Repr

/-- What a host read returns: a byte (R48) or the value of a register (R49). -/
inductive HostReply where
  | byte (b : Byte)
  | word (v : Word32)
  deriving DecidableEq, Repr

/-- A large buffer: the bytes written so far, as (index, byte) with strictly rising indices. A byte that is not listed
holds no known value: it reads as the free value of its last reset (log 2, log 10). -/
abbrev Memory := List Host.Cell

/-- The state of the core. STATUS stands as its three fields ERR, KSV and NR; the register's word is computed from them
(log 8). `resets`, `pending` and `reply` are the model's own (log 2, log 3, log 4). -/
structure State where
  /-- STATUS.ERR, bits 3:0 (R13) -/
  err : BitVec 4
  /-- STATUS.KSV, bit 4 (R13) -/
  ksv : Bool
  /-- STATUS.NR, bits 11:8 (R13) -/
  nr : BitVec 4
  /-- KEYLEN, bits 7:0 (R14) -/
  keylen : BitVec 8
  /-- IVLEN, bits 7:0 (R15) -/
  ivlen : BitVec 8
  /-- DLEN (R16) -/
  dlen : Word32
  /-- OLEN (R17) -/
  olen : Word32
  /-- KEYBUF (R19) -/
  keybuf : Vector Byte 32
  /-- IVBUF (R20) -/
  ivbuf : Block
  /-- DIN (R21) -/
  din : Memory
  /-- DOUT (R22) -/
  dout : Memory
  /-- RK[0..14] (R23) -/
  rk : Vector Block 15
  /-- CHAIN (R24) -/
  chain : Block
  /-- the number of reset events so far: which free bytes DIN and DOUT hold (log 2) -/
  resets : Nat
  /-- the host's transactions, next one first (log 3) -/
  pending : List HostTxn
  /-- what the most recent host read returned (log 4) -/
  reply : Option HostReply
  deriving DecidableEq, Repr

/-- The state after reset (70_reset_and_hazards.md R230, 10_state.md section 10). DIN and DOUT list nothing: every byte
of them is unspecified (U9). -/
def State.reset : State where
  err := 0
  ksv := false
  nr := 0
  keylen := 0
  ivlen := 0
  dlen := 0
  olen := 0
  keybuf := Vector.replicate 32 0#8
  ivbuf := zeroBlock
  din := []
  dout := []
  rk := Vector.replicate 15 zeroBlock
  chain := zeroBlock
  resets := 0
  pending := []
  reply := none

end Sys2Proof.Machine
end

