-- ==== Sys2Proof/Machine/Flags.lean ====
section
/-! DEFINITION. The flags: the codes of the error kinds (spec/60_exceptions.md R200) and the word STATUS made of its fields
(spec/10_state.md R13, R27). The core has no condition codes. -/

namespace Sys2Proof.Machine

/-- The code of an error kind in STATUS.ERR (60_exceptions.md R200). -/
def ErrorKind.code : ErrorKind → BitVec 4
  | .invalidKeySize => 1
  | .invalidBlockSize => 2
  | .misalignedLength => 3
  | .invalidPadding => 4
  | .illegalCommand => 5
  | .noKeySchedule => 6

/-- The code of success, and of no command since reset (R200). -/
def okCode : BitVec 4 := 0

/-- STATUS as the host reads it (10_state.md R13): ERR in bits 3:0, KSV in bit 4, NR in bits 11:8, all others 0. -/
def State.statusWord (s : State) : Word32 :=
  0#20 ++ s.nr ++ 0#3 ++ BitVec.ofBool s.ksv ++ s.err

/-- KEYLEN as the host reads it: bits 31:8 read 0 (10_state.md R14). -/
def State.keylenWord (s : State) : Word32 := s.keylen.setWidth 32

/-- IVLEN as the host reads it (10_state.md R15). -/
def State.ivlenWord (s : State) : Word32 := s.ivlen.setWidth 32

end Sys2Proof.Machine
end

