-- ==== Sys2Proof/Machine/Ops.lean ====
section
/-! DEFINITION. The named operations over the buffers and registers: reading and writing a large buffer, the input and
the output of a command, raising an error (spec/60_exceptions.md R203, the core's counterpart of taking an
exception; there is no return, R213) and ending a command with a result. -/

namespace Sys2Proof.Machine

/-- The byte listed for an index, if any. -/
def Memory.cellAt (m : Memory) (i : Nat) : Option Byte := m.lookup i

/-- The cells that hold `bs` from index i on. -/
def cellsFrom : Nat → List Byte → Memory
  | _, [] => []
  | i, b :: bs => (i, b) :: cellsFrom (i + 1) bs

/-- `MemWrite(B, i, len(bs), bs)` (00_scope.md section 6): the bytes from i on become `bs`, no other byte changes. -/
def Memory.write (m : Memory) (i : Nat) (bs : List Byte) : Memory :=
  m.filter (fun c => c.1 < i) ++ cellsFrom i bs ++ m.filter (fun c => i + bs.length ≤ c.1)

/-- The canonical form: indices strictly rising. An unlisted byte holds no known value, so no entry repeats it (log 10). -/
abbrev Memory.wf (m : Memory) : Prop := m.Pairwise (fun a b => a.1 < b.1)

/-- Every listed index lies in a buffer of n bytes. -/
abbrev Memory.within (m : Memory) (n : Nat) : Prop := ∀ c ∈ m, c.1 < n

/-- DIN[i]: the byte written there, else the unspecified byte of the last reset (10_state.md R21, log 2). -/
def State.dinByte (s : State) (i : Nat) : Byte := (s.din.cellAt i).getD (Config.dinResetByte s.resets i)

/-- DOUT[i] (10_state.md R22, log 2). -/
def State.doutByte (s : State) (i : Nat) : Byte := (s.dout.cellAt i).getD (Config.doutResetByte s.resets i)

/-- The input of a command, `MemRead(DIN, 0, DLEN)` (20_memory.md R55). -/
def State.input (s : State) : List Byte := (List.range s.dlen.toNat).map s.dinByte

/-- The result of the most recent command, `DOUT[0..OLEN)` (10_state.md R17, R22). -/
def State.output (s : State) : List Byte := (List.range s.olen.toNat).map s.doutByte

/-- `raise E` (60_exceptions.md R203): ERR takes the code of E, OLEN 0, CHAIN zeros(16); nothing else changes. This is
the whole of taking an error (R212). -/
def State.raise (e : ErrorKind) (s : State) : State := { s with err := e.code, olen := 0, chain := zeroBlock }

/-- The end of a command that succeeds with the result `out`: `MemWrite(DOUT, 0, len(out), out)`, `OLEN <- len(out)`,
`STATUS.ERR <- 0` (R203, 20_memory.md R55). -/
def State.complete (out : List Byte) (s : State) : State :=
  { s with dout := s.dout.write 0 out, olen := BitVec.ofNat 32 out.length, err := okCode }

/-- CHAIN is cleared when a command that used it ends (10_state.md R24, 43_modes.md R170; log 6). -/
def State.clearChain (s : State) : State := { s with chain := zeroBlock }

/-- A key schedule is stored whole (10_state.md R23, 41_key_schedule.md R100): RK[0..nr], zeros above, NR, KSV; OLEN 0,
ERR 0. -/
def State.storeSchedule (nr : Nat) (rks : List Block) (s : State) : State :=
  { s with
    rk := Vector.ofFn fun i => if i.val ≤ nr then rks.getD i.val zeroBlock else zeroBlock
    nr := BitVec.ofNat 4 nr
    ksv := true
    olen := 0
    err := okCode }

/-- The end of a command that does not use CHAIN: it raises its error or completes with its result (R203, R223). -/
def conclude (r : Except ErrorKind (List Byte)) (s : State) : Host.Outcome State Fault Refusal :=
  match r with
  | .error e => .next (s.raise e)
  | .ok out => .next (s.complete out)

/-- The end of a mode command that uses CHAIN: the same, and CHAIN is cleared (43_modes.md R170; log 6). -/
def concludeChained (r : Except ErrorKind (List Byte)) (s : State) : Host.Outcome State Fault Refusal :=
  match r with
  | .error e => .next (s.raise e)
  | .ok out => .next (s.complete out).clearChain

end Sys2Proof.Machine
end

