-- ==== Sys2Proof/Machine/Operands.lean ====
section
/-! DEFINITION. The operands of a command: the padding flag and the block size from the command word, the input, the IV
or counter, and the checks every command makes on them before it computes (spec/30_encoding.md R63 to R67,
spec/43_modes.md R151, R153, R154, spec/60_exceptions.md R206). -/

namespace Sys2Proof.Machine

/-- The direction of a mode command (30_encoding.md R68). -/
inductive Dir where
  | enc
  | dec
  deriving DecidableEq, Repr

/-- The mode of operation (30_encoding.md R62). -/
inductive Mode where
  | ecb
  | cbc
  | cfb
  | ofb
  | ctr
  deriving DecidableEq, Repr

/-- `padf = 1 - NOPAD` (30_encoding.md R63). -/
def padFlag (nopad : Bool) : Bool := !nopad

/-- `n = 16 if BS == 0 else BS`, zero-extended (30_encoding.md R65). -/
def blockSize (bs : BitVec 8) : Nat := if bs = 0 then 16 else bs.toNat

/-- A command that reads DIN raises IllegalCommand when DLEN > DCAP (30_encoding.md R67). -/
def checkInput (s : State) : Except ErrorKind Unit :=
  if Config.dcap < s.dlen.toNat then .error .illegalCommand else .ok ()

/-- A command that reads RK raises NoKeySchedule when KSV = 0 (60_exceptions.md R206). -/
def checkSchedule (s : State) : Except ErrorKind Unit :=
  if s.ksv then .ok () else .error .noKeySchedule

/-- ENCB and DECB need exactly one block (42_block_transform.md R130, R131). -/
def checkOneBlock (s : State) : Except ErrorKind Unit :=
  if s.dlen = 16 then .ok () else .error .invalidBlockSize

/-- `resolve(m, ivs)` (43_modes.md R151): the initial value of CHAIN. ECB has none and reads nothing; the zero block
returned for it is not used. -/
def resolve (m : Mode) (ivs : Bool) (s : State) : Except ErrorKind Block :=
  if m = .ecb then .ok zeroBlock
  else if !ivs then .ok zeroBlock
  else if s.ivlen = 16 then .ok s.ivbuf
  else .error .invalidBlockSize

/-- `check_alignment(dir, m, padf)` (43_modes.md R153). -/
def checkAlignment (d : Dir) (m : Mode) (padf : Bool) (s : State) : Except ErrorKind Unit :=
  if (m = .ecb ∨ m = .cbc) ∧ (d = .dec ∨ padf = false) ∧ s.dlen.toNat % 16 ≠ 0 then .error .misalignedLength
  else .ok ()

/-- The operands of ENCB and DECB, after their checks in order (42_block_transform.md R130, R131). -/
def blockOperand (s : State) : Except ErrorKind (List Byte) := do
  checkInput s
  checkSchedule s
  checkOneBlock s
  return s.input

/-- The operands of PAD and UNPAD, after their check (44_padding.md R192, R193). -/
def padOperand (s : State) : Except ErrorKind (List Byte) := do
  checkInput s
  return s.input

/-- `prologue(dir, m, padf, ivs)` (43_modes.md R154): the checks in their order, then the IV and the data. -/
def prologue (d : Dir) (m : Mode) (padf ivs : Bool) (s : State) : Except ErrorKind (Block × List Byte) := do
  checkInput s
  checkSchedule s
  let iv ← resolve m ivs s
  checkAlignment d m padf s
  return (iv, s.input)

end Sys2Proof.Machine
end

