-- ==== Sys2Proof/Machine/KeySchedule.lean ====
section
/-! DEFINITION. The key schedule expander and the command EXPAND (spec/41_key_schedule.md R100 to R107). -/

namespace Sys2Proof.Machine

/-- `RotWord`: the first byte moves to the end (R103). -/
def rotWord (w : KeyWord) : KeyWord := #v[w[1], w[2], w[3], w[0]]

/-- `SubWord`: SBOX on each byte (R103). -/
def subWord (w : KeyWord) : KeyWord := w.map sbox

/-- `RconWord(j)` (R103). -/
def rconWord (j : Nat) : KeyWord := #v[rcon j, 0x00#8, 0x00#8, 0x00#8]

/-- The word t of word i: case (a), (b) or (c) of R101, from the previous word. -/
def scheduleTerm (nk i : Nat) (prev : KeyWord) : KeyWord :=
  if i % nk = 0 then xorWord (subWord (rotWord prev)) (rconWord (i / nk))
  else if nk = 8 ∧ i % nk = 4 then subWord prev
  else prev

/-- The words so far, w[0] first, and one more: `w[i] = w[i-Nk] ^ t` (R101). -/
def appendWord (nk : Nat) (ws : List KeyWord) : List KeyWord :=
  let i := ws.length
  ws ++ [xorWord (ws.getD (i - nk) zeroWord) (scheduleTerm nk i (ws.getD (i - 1) zeroWord))]

/-- `n` more words (R101). -/
def appendWords (nk : Nat) : Nat → List KeyWord → List KeyWord
  | 0, ws => ws
  | n + 1, ws => appendWords nk n (appendWord nk ws)

/-- Word i of the key, `key[4*i .. 4*i+4)` (R101). -/
def keyWord (key : List Byte) (i : Nat) : KeyWord := Vector.ofFn fun j => key.getD (4 * i + j.val) 0x00#8

/-- All `4 * (Nr + 1)` words of the schedule of a key of 4 * nk bytes (R101, R104: Nr = Nk + 6). -/
def scheduleWords (nk : Nat) (key : List Byte) : List KeyWord :=
  appendWords nk (4 * (nk + 6 + 1) - nk) ((List.range nk).map (keyWord key))

/-- Round key r: words 4r to 4r+3 laid end to end (R102). -/
def packRoundKey (ws : List KeyWord) (r : Nat) : Block :=
  Vector.ofFn fun j => (ws.getD (4 * r + j.val / 4) zeroWord)[j.val % 4]

/-- `expand(key)` (R101): the number of rounds and the round keys rk[0..Nr]. -/
def expandKey (key : List Byte) : Nat × List Block :=
  let nk := key.length / 4
  let nr := nk + 6
  (nr, (List.range (nr + 1)).map (packRoundKey (scheduleWords nk key)))

/-- The key, `KEYBUF[0..KEYLEN)` (R100). -/
def State.key (s : State) : List Byte := s.keybuf.toList.take s.keylen.toNat

/-- EXPAND (R100). -/
def execExpand (s : State) : Host.Outcome State Fault Refusal :=
  if s.keylen = 16 ∨ s.keylen = 24 ∨ s.keylen = 32 then
    .next (s.storeSchedule (expandKey s.key).1 (expandKey s.key).2)
  else .next (s.raise .invalidKeySize)

end Sys2Proof.Machine
end

