-- ==== Sys2Proof/Machine/BlockTransform.lean ====
section
/-! DEFINITION. The block transform E and its inverse D, and the commands ENCB and DECB (spec/42_block_transform.md R120 to
R132). A block is the cipher state, column-major: the element in row r and column c is byte r + 4*c (R120). -/

namespace Sys2Proof.Machine

/-- `AddRoundKey` (R121). -/
def addRoundKey (st k : Block) : Block := xorBlock st k

/-- `SubBytes` (R122). -/
def subBytes (st : Block) : Block := st.map sbox

/-- `InvSubBytes` (R123). -/
def invSubBytes (st : Block) : Block := st.map invSbox

/-- The element in row r and column c, both taken mod 4 (R120). -/
def elementAt (st : Block) (r c : Nat) : Byte := st[r % 4 + 4 * (c % 4)]

/-- `ShiftRows`: the new element (r, c) is the old element (r, (c + r) mod 4) (R124). Byte i is in row i mod 4 and
column i div 4. -/
def shiftRows (st : Block) : Block := Vector.ofFn fun i => elementAt st (i.val % 4) (i.val / 4 + i.val % 4)

/-- `InvShiftRows`: the new element (r, c) is the old element (r, (c - r) mod 4) (R125). -/
def invShiftRows (st : Block) : Block := Vector.ofFn fun i => elementAt st (i.val % 4) (i.val / 4 + 4 - i.val % 4)

/-- A 4 by 4 matrix of multipliers applied to each column of the state, the column a column vector on its right: row r of
the result's column is the sum over k of m[r][k] * a_k (R126, R127). -/
def mixWith (m : Nat → Nat → Byte) (st : Block) : Block :=
  Vector.ofFn fun i =>
    let r := i.val % 4
    let c := i.val / 4
    gmul (m r 0) (elementAt st 0 c) ^^^ gmul (m r 1) (elementAt st 1 c) ^^^
      gmul (m r 2) (elementAt st 2 c) ^^^ gmul (m r 3) (elementAt st 3 c)

/-- Entry (r, k) of a matrix given row by row. -/
def matrixEntry (rows : List (List Byte)) (r k : Nat) : Byte := (rows.getD r []).getD k 0x00#8

/-- The matrix M of R126. -/
def mixMatrix : List (List Byte) :=
  [[0x02, 0x03, 0x01, 0x01],
   [0x01, 0x02, 0x03, 0x01],
   [0x01, 0x01, 0x02, 0x03],
   [0x03, 0x01, 0x01, 0x02]]

/-- The matrix IM of R127. -/
def invMixMatrix : List (List Byte) :=
  [[0x0e, 0x0b, 0x0d, 0x09],
   [0x09, 0x0e, 0x0b, 0x0d],
   [0x0d, 0x09, 0x0e, 0x0b],
   [0x0b, 0x0d, 0x09, 0x0e]]

/-- `MixColumns` (R126). -/
def mixColumns (st : Block) : Block := mixWith (matrixEntry mixMatrix) st

/-- `InvMixColumns` (R127). -/
def invMixColumns (st : Block) : Block := mixWith (matrixEntry invMixMatrix) st

/-- `RK[i]`. A round number above 14 names no slot; no reachable state has one, and the zero block stands there (log 7). -/
def roundKey (rk : Vector Block 15) (i : Nat) : Block := rk[i]?.getD zeroBlock

/-- One round of E with its round key (R128). -/
def encRound (rk : Vector Block 15) (st : Block) (i : Nat) : Block :=
  addRoundKey (mixColumns (shiftRows (subBytes st))) (roundKey rk i)

/-- One round of D with its round key (R129). -/
def decRound (rk : Vector Block 15) (st : Block) (i : Nat) : Block :=
  invSubBytes (invShiftRows (invMixColumns (addRoundKey st (roundKey rk i))))

/-- The rounds 1 to nr - 1 in rising order. -/
def middleRounds (nr : Nat) : List Nat := (List.range (nr - 1)).map (· + 1)

/-- `E(b, rk, Nr)`: encryptBlock (R128). -/
def encryptBlock (rk : Vector Block 15) (nr : Nat) (b : Block) : Block :=
  let st := addRoundKey b (roundKey rk 0)
  let st := (middleRounds nr).foldl (encRound rk) st
  addRoundKey (shiftRows (subBytes st)) (roundKey rk nr)

/-- `D(b, rk, Nr)`: decryptBlock (R129). -/
def decryptBlock (rk : Vector Block 15) (nr : Nat) (b : Block) : Block :=
  let st := addRoundKey b (roundKey rk nr)
  let st := invSubBytes (invShiftRows st)
  let st := (middleRounds nr).reverse.foldl (decRound rk) st
  addRoundKey st (roundKey rk 0)

/-- E under the schedule in RK. -/
def State.encryptBlock (s : State) (b : Block) : Block := Sys2Proof.Machine.encryptBlock s.rk s.nr.toNat b

/-- D under the schedule in RK. -/
def State.decryptBlock (s : State) (b : Block) : Block := Sys2Proof.Machine.decryptBlock s.rk s.nr.toNat b

/-- ENCB (R130). -/
def execEncb (s : State) : Host.Outcome State Fault Refusal :=
  conclude ((blockOperand s).map fun b => (s.encryptBlock (blockOf b)).toList) s

/-- DECB (R131). -/
def execDecb (s : State) : Host.Outcome State Fault Refusal :=
  conclude ((blockOperand s).map fun c => (s.decryptBlock (blockOf c)).toList) s

end Sys2Proof.Machine
end

