-- ==== Sys2Proof/Machine/Padding.lean ====
section
/-! DEFINITION. The padding module and the commands PAD and UNPAD (spec/44_padding.md R190 to R195). -/

namespace Sys2Proof.Machine

/-- The number of bytes that `pad` appends to L bytes: 1 to n (R190). -/
def padCount (l n : Nat) : Nat := n - l % n

/-- `pad(d, n)`: zeros, then the count (R190). -/
def padBytes (d : List Byte) (n : Nat) : List Byte :=
  d ++ zeros (padCount d.length n - 1) ++ [BitVec.ofNat 8 (padCount d.length n)]

/-- `unpad(d, n)`: d without its padding, or InvalidPadding (R191). -/
def unpadBytes (d : List Byte) (n : Nat) : Except ErrorKind (List Byte) :=
  let l := d.length
  let k := (d.getD (l - 1) 0x00#8).toNat
  if l = 0 ∨ l % n ≠ 0 then .error .invalidPadding
  else if k = 0 ∨ n < k then .error .invalidPadding
  else if ((d.drop (l - k)).take (k - 1)).any (· != 0x00#8) then .error .invalidPadding
  else .ok (d.take (l - k))

/-- `pad(data, 16) if padf == 1 else data` (43_modes.md R160, R162; R195). -/
def padIf (padf : Bool) (d : List Byte) : List Byte := if padf then padBytes d 16 else d

/-- `if padf == 1: out = unpad(out, 16)` (43_modes.md R161, R163; R195). -/
def unpadIf (padf : Bool) (d : List Byte) : Except ErrorKind (List Byte) := if padf then unpadBytes d 16 else .ok d

/-- PAD (R192). -/
def execPad (bs : BitVec 8) (s : State) : Host.Outcome State Fault Refusal :=
  conclude ((padOperand s).map fun d => padBytes d (blockSize bs)) s

/-- UNPAD (R193). -/
def execUnpad (bs : BitVec 8) (s : State) : Host.Outcome State Fault Refusal :=
  conclude ((padOperand s).bind fun d => unpadBytes d (blockSize bs)) s

end Sys2Proof.Machine
end

