-- ==== Sys2Proof/Machine/Modes.lean ====
section
/-! DEFINITION. The mode controller: the block loop, the five modes, and the commands ENC.* and DEC.* (spec/43_modes.md R150
to R171). -/

namespace Sys2Proof.Machine

/-- `nb = ceil(L / 16)` (20_memory.md R42). -/
def blockCount (l : Nat) : Nat := (l + 15) / 16

/-- The block loop (R152): `n` turns over the blocks of d in index order (20_memory.md R42). A turn takes CHAIN and the
input block, of 16 bytes or, for the last one, 1 to 16, and gives the output block and the new CHAIN. -/
def blockLoop (f : Block → List Byte → List Byte × Block) : Nat → Block → List Byte → List Byte × Block
  | 0, chain, _ => ([], chain)
  | n + 1, chain, d =>
    let turn := f chain (d.take 16)
    let rest := blockLoop f n turn.2 (d.drop 16)
    (turn.1 ++ rest.1, rest.2)

/-- A mode command's loop over a whole message from the initial CHAIN: the output (R150, R152). The CHAIN left at the end
is discarded (R170). -/
def runBlocks (f : Block → List Byte → List Byte × Block) (iv : Block) (d : List Byte) : List Byte :=
  (blockLoop f (blockCount d.length) iv d).1

/-- `x ^ ks[0..len(x))`: the keystream is cut to the block (R155). -/
def xorKeystream (x : List Byte) (ks : Block) : List Byte := List.zipWith (· ^^^ ·) x ks.toList

/-- `inc128(c)`, from byte 15 leftward: the bytes in reverse order, with the carry (R156). -/
def incBytes : List Byte → List Byte
  | [] => []
  | b :: bs => if b + 1 = 0x00#8 then 0x00#8 :: incBytes bs else (b + 1) :: bs

/-- `inc128(c)` (R156): big-endian, the whole block is the counter. -/
def inc128 (c : Block) : Block := blockOf (incBytes c.toList.reverse).reverse

/-- A turn of ENC.ECB (R160); ECB has no CHAIN. -/
def ecbEncTurn (e : Block → Block) (chain : Block) (x : List Byte) : List Byte × Block :=
  ((e (blockOf x)).toList, chain)

/-- A turn of DEC.ECB (R161). -/
def ecbDecTurn (d : Block → Block) (chain : Block) (x : List Byte) : List Byte × Block :=
  ((d (blockOf x)).toList, chain)

/-- A turn of ENC.CBC (R162). -/
def cbcEncTurn (e : Block → Block) (chain : Block) (x : List Byte) : List Byte × Block :=
  let c := e (xorBlock (blockOf x) chain)
  (c.toList, c)

/-- A turn of DEC.CBC (R163). -/
def cbcDecTurn (d : Block → Block) (chain : Block) (x : List Byte) : List Byte × Block :=
  let c := blockOf x
  ((xorBlock (d c) chain).toList, c)

/-- A turn of ENC.CFB (R164): CHAIN takes the output block, unless the block is short (R170). -/
def cfbEncTurn (e : Block → Block) (chain : Block) (x : List Byte) : List Byte × Block :=
  let c := xorKeystream x (e chain)
  (c, if x.length = 16 then blockOf c else chain)

/-- A turn of DEC.CFB (R165): E, and CHAIN takes the input block. -/
def cfbDecTurn (e : Block → Block) (chain : Block) (c : List Byte) : List Byte × Block :=
  (xorKeystream c (e chain), if c.length = 16 then blockOf c else chain)

/-- A turn of ENC.OFB and DEC.OFB (R166, R167): CHAIN takes the whole keystream block. -/
def ofbTurn (e : Block → Block) (chain : Block) (x : List Byte) : List Byte × Block :=
  let ks := e chain
  (xorKeystream x ks, ks)

/-- A turn of ENC.CTR and DEC.CTR (R168, R169). -/
def ctrTurn (e : Block → Block) (chain : Block) (x : List Byte) : List Byte × Block :=
  (xorKeystream x (e chain), inc128 chain)

/-- ENC.ECB (R160). IVS is a don't-care: `resolve` reads nothing for ECB. -/
def execEncEcb (nopad ivs : Bool) (s : State) : Host.Outcome State Fault Refusal :=
  conclude ((prologue .enc .ecb (padFlag nopad) ivs s).map fun p =>
    runBlocks (ecbEncTurn s.encryptBlock) p.1 (padIf (padFlag nopad) p.2)) s

/-- DEC.ECB (R161). -/
def execDecEcb (nopad ivs : Bool) (s : State) : Host.Outcome State Fault Refusal :=
  conclude ((prologue .dec .ecb (padFlag nopad) ivs s).bind fun p =>
    unpadIf (padFlag nopad) (runBlocks (ecbDecTurn s.decryptBlock) p.1 p.2)) s

/-- ENC.CBC (R162). -/
def execEncCbc (nopad ivs : Bool) (s : State) : Host.Outcome State Fault Refusal :=
  concludeChained ((prologue .enc .cbc (padFlag nopad) ivs s).map fun p =>
    runBlocks (cbcEncTurn s.encryptBlock) p.1 (padIf (padFlag nopad) p.2)) s

/-- DEC.CBC (R163). -/
def execDecCbc (nopad ivs : Bool) (s : State) : Host.Outcome State Fault Refusal :=
  concludeChained ((prologue .dec .cbc (padFlag nopad) ivs s).bind fun p =>
    unpadIf (padFlag nopad) (runBlocks (cbcDecTurn s.decryptBlock) p.1 p.2)) s

/-- ENC.CFB (R164). NOPAD is a don't-care. -/
def execEncCfb (nopad ivs : Bool) (s : State) : Host.Outcome State Fault Refusal :=
  concludeChained ((prologue .enc .cfb (padFlag nopad) ivs s).map fun p =>
    runBlocks (cfbEncTurn s.encryptBlock) p.1 p.2) s

/-- DEC.CFB (R165). It uses E. -/
def execDecCfb (nopad ivs : Bool) (s : State) : Host.Outcome State Fault Refusal :=
  concludeChained ((prologue .dec .cfb (padFlag nopad) ivs s).map fun p =>
    runBlocks (cfbDecTurn s.encryptBlock) p.1 p.2) s

/-- ENC.OFB (R166). -/
def execEncOfb (nopad ivs : Bool) (s : State) : Host.Outcome State Fault Refusal :=
  concludeChained ((prologue .enc .ofb (padFlag nopad) ivs s).map fun p =>
    runBlocks (ofbTurn s.encryptBlock) p.1 p.2) s

/-- DEC.OFB (R167). -/
def execDecOfb (nopad ivs : Bool) (s : State) : Host.Outcome State Fault Refusal :=
  concludeChained ((prologue .dec .ofb (padFlag nopad) ivs s).map fun p =>
    runBlocks (ofbTurn s.encryptBlock) p.1 p.2) s

/-- ENC.CTR (R168). IVBUF is not advanced. -/
def execEncCtr (nopad ivs : Bool) (s : State) : Host.Outcome State Fault Refusal :=
  concludeChained ((prologue .enc .ctr (padFlag nopad) ivs s).map fun p =>
    runBlocks (ctrTurn s.encryptBlock) p.1 p.2) s

/-- DEC.CTR (R169). -/
def execDecCtr (nopad ivs : Bool) (s : State) : Host.Outcome State Fault Refusal :=
  concludeChained ((prologue .dec .ctr (padFlag nopad) ivs s).map fun p =>
    runBlocks (ctrTurn s.encryptBlock) p.1 p.2) s

end Sys2Proof.Machine
end

