-- ==== Sys2Proof/Machine/Dispatch.lean ====
section
/-! DEFINITION. One arm per command (spec/30_encoding.md R69). -/

namespace Sys2Proof.Machine

def exec (i : Instr) (s : State) : Host.Outcome State Fault Refusal :=
  match i with
  | .expand => Sys2Proof.Machine.execExpand s
  | .encb => Sys2Proof.Machine.execEncb s
  | .decb => Sys2Proof.Machine.execDecb s
  | .encEcb nopad ivs => Sys2Proof.Machine.execEncEcb nopad ivs s
  | .decEcb nopad ivs => Sys2Proof.Machine.execDecEcb nopad ivs s
  | .encCbc nopad ivs => Sys2Proof.Machine.execEncCbc nopad ivs s
  | .decCbc nopad ivs => Sys2Proof.Machine.execDecCbc nopad ivs s
  | .encCfb nopad ivs => Sys2Proof.Machine.execEncCfb nopad ivs s
  | .decCfb nopad ivs => Sys2Proof.Machine.execDecCfb nopad ivs s
  | .encOfb nopad ivs => Sys2Proof.Machine.execEncOfb nopad ivs s
  | .decOfb nopad ivs => Sys2Proof.Machine.execDecOfb nopad ivs s
  | .encCtr nopad ivs => Sys2Proof.Machine.execEncCtr nopad ivs s
  | .decCtr nopad ivs => Sys2Proof.Machine.execDecCtr nopad ivs s
  | .pad bs => Sys2Proof.Machine.execPad bs s
  | .unpad bs => Sys2Proof.Machine.execUnpad bs s

end Sys2Proof.Machine
end

