-- ==== Sys2Proof/Machine/Bus.lean ====
section
/-! DEFINITION. The host's side: the address map, byte and register accesses, the write to CMD that runs a command, and
the reset event (spec/20_memory.md R44, R48, R49, R52; spec/10_state.md R12 to R23; spec/70_reset_and_hazards.md
R230). -/

namespace Sys2Proof.Machine

/-- The regions of the address map (20_memory.md R44). -/
inductive Region where
  | csr
  | keybuf
  | ivbuf
  | rk
  | din
  | dout
  deriving DecidableEq, Repr

/-- A row of the address map: the region, its first address, its size in bytes. -/
structure RegionRow where
  region : Region
  base : Nat
  size : Nat
  deriving DecidableEq, Repr

/-- The address map (20_memory.md R44). -/
def addressMap : List RegionRow := [
  ⟨.csr, 0x00000000, 24⟩,
  ⟨.keybuf, 0x00000100, 32⟩,
  ⟨.ivbuf, 0x00000120, 16⟩,
  ⟨.rk, 0x00000200, 240⟩,
  ⟨.din, 0x40000000, Config.dcap⟩,
  ⟨.dout, 0x80000000, Config.ocap⟩]

/-- The region an address lies in and the index there; none for an unmapped address (20_memory.md R44, R52). -/
def locate (a : Word32) : Option (Region × Nat) :=
  (addressMap.find? fun r => r.base ≤ a.toNat && a.toNat - r.base < r.size).map fun r => (r.region, a.toNat - r.base)

/-- KEYBUF[i] (10_state.md R19). -/
def State.keybufByte (s : State) (i : Nat) : Byte := s.keybuf[i]?.getD 0x00#8

/-- IVBUF[i] (10_state.md R20). -/
def State.ivbufByte (s : State) (i : Nat) : Byte := s.ivbuf[i]?.getD 0x00#8

/-- Byte i of the RK space: byte i mod 16 of slot i div 16 (10_state.md R23). -/
def State.rkByte (s : State) (i : Nat) : Byte := (roundKey s.rk (i / 16))[i % 16]

/-- HostRead8(a): the byte, or none where it is not a transaction (20_memory.md R48, R52). -/
def State.read8 (s : State) (a : Word32) : Option Byte :=
  match locate a with
  | some (.keybuf, i) => some (s.keybufByte i)
  | some (.ivbuf, i) => some (s.ivbufByte i)
  | some (.rk, i) => some (s.rkByte i)
  | some (.din, i) => some (s.dinByte i)
  | some (.dout, i) => some (s.doutByte i)
  | some (.csr, _) => none
  | none => none

/-- HostWrite8(a, b): stored in KEYBUF, IVBUF and DIN, ignored by RK and DOUT; none where it is not a transaction
(20_memory.md R48, R52). -/
def State.write8 (s : State) (a : Word32) (b : Byte) : Option State :=
  match locate a with
  | some (.keybuf, i) => some { s with keybuf := s.keybuf.setIfInBounds i b }
  | some (.ivbuf, i) => some { s with ivbuf := s.ivbuf.setIfInBounds i b }
  | some (.rk, _) => some s
  | some (.din, i) => some { s with din := s.din.write i [b] }
  | some (.dout, _) => some s
  | some (.csr, _) => none
  | none => none

/-- HostRead32(a): the register's value; none where it is not a transaction (20_memory.md R49, R52). -/
def State.read32 (s : State) (a : Word32) : Option Word32 :=
  match a.toNat with
  | 0x00 => some 0
  | 0x04 => some s.statusWord
  | 0x08 => some s.keylenWord
  | 0x0C => some s.ivlenWord
  | 0x10 => some s.dlen
  | 0x14 => some s.olen
  | _ => none

/-- A write of c to CMD: the engine's step. A word that names no command raises IllegalCommand (10_state.md R12,
30_encoding.md R66, R68). -/
def runCommand (c : Word32) (s : State) : Host.Outcome State Fault Refusal :=
  match decode c with
  | .ok i => exec i s
  | .error _ => .next (s.raise .illegalCommand)

/-- HostWrite32(a, v) (20_memory.md R49, R52): CMD runs the command v, KEYLEN and IVLEN keep bits 7:0, DLEN all bits,
STATUS and OLEN ignore the write. -/
def State.write32 (s : State) (a v : Word32) : Host.Outcome State Fault Refusal :=
  match a.toNat with
  | 0x00 => runCommand v s
  | 0x04 => .next s
  | 0x08 => .next { s with keylen := v.setWidth 8 }
  | 0x0C => .next { s with ivlen := v.setWidth 8 }
  | 0x10 => .next { s with dlen := v }
  | 0x14 => .next s
  | _ => .refused .notATransaction

/-- The reset event (70_reset_and_hazards.md R230): every piece of the core's state takes its reset value; DIN and DOUT
take fresh unspecified bytes (log 2). The host's transactions still to come, and what its last read returned, are not
the core's and stay (log 11). -/
def State.resetEvent (s : State) : State :=
  { State.reset with resets := s.resets + 1, pending := s.pending, reply := s.reply }

/-- One host transaction. -/
def perform (t : HostTxn) (s : State) : Host.Outcome State Fault Refusal :=
  match t with
  | .read8 a =>
    match s.read8 a with
    | some b => .next { s with reply := some (.byte b) }
    | none => .refused .notATransaction
  | .write8 a b =>
    match s.write8 a b with
    | some s' => .next s'
    | none => .refused .notATransaction
  | .read32 a =>
    match s.read32 a with
    | some v => .next { s with reply := some (.word v) }
    | none => .refused .notATransaction
  | .write32 a v => s.write32 a v
  | .reset => .next s.resetEvent
  | .otherWidth _ _ => .refused .notATransaction

/-- The next step's transaction is taken from the front of the host's list; with none the core is idle and holds its
state (60_exceptions.md R221, 70_reset_and_hazards.md R231; log 3). -/
def stepHost (s : State) : Host.Outcome State Fault Refusal :=
  match s.pending with
  | [] => .next s
  | t :: rest => perform t { s with pending := rest }

/-- The host's list with a write of the command word to CMD in front (log 3). -/
def State.withCommand (s : State) (c : Word32) : State := { s with pending := .write32 0x00 c :: s.pending }

end Sys2Proof.Machine
end

