-- ==== Sys2Proof/Machine/Step.lean ====
section
/-! DEFINITION. One step of the machine: one host transaction (spec/00_scope.md R6, spec/20_memory.md R51). -/

namespace Sys2Proof.Machine

/-- One step: the next host transaction, atomically (20_memory.md R46, R51). -/
def step (s : State) : Host.Outcome State Fault Refusal := stepHost s

/-- The state whose next step runs the command word w, of nbits bits: the host's next transaction is the write of w to
CMD (log 3). -/
def State.withFetchWord (s : State) (nbits w : Nat) : State := s.withCommand (BitVec.ofNat 32 (w % 2 ^ nbits))

end Sys2Proof.Machine
end

