-- ==== Sys2Proof/Machine/Script.lean ====
section
/-! DEFINITION. The notation for host scripts (spec/30_encoding.md R70 to R72) as lists of host transactions, and what the
statements RESULT and FAILS say of a state. A notation, not hardware: no step depends on it (log 13). -/

namespace Sys2Proof.Machine

/-- `WRB <buf>[+<off>], <hex>` (R71): the bytes of `bs` to the addresses from `a` on, in order. -/
def writeBytes : Word32 → List Byte → List HostTxn
  | _, [] => []
  | a, b :: bs => .write8 a b :: writeBytes (a + 1) bs

/-- `RDB <buf>[+<off>], <n>` (R71). -/
def readBytes : Word32 → Nat → List HostTxn
  | _, 0 => []
  | a, n + 1 => .read8 a :: readBytes (a + 1) n

/-- `CMD <command>` (R71). -/
def command (i : Instr) : List HostTxn := [.write32 0x00 (encode i)]

/-- `LDKEY <hex>` (R72). -/
def loadKey (key : List Byte) : List HostTxn :=
  writeBytes 0x100 (key.take 32) ++ [.write32 0x08 (BitVec.ofNat 32 key.length)]

/-- `LDIV <hex>` (R72). -/
def loadIv (iv : List Byte) : List HostTxn :=
  writeBytes 0x120 (iv.take 16) ++ [.write32 0x0C (BitVec.ofNat 32 iv.length)]

/-- `LDDATA <hex>` (R72). -/
def loadData (d : List Byte) : List HostTxn :=
  writeBytes 0x40000000 d ++ [.write32 0x10 (BitVec.ofNat 32 d.length)]

/-- `SETKEY <hex>` (R72). -/
def setKey (key : List Byte) : List HostTxn := loadKey key ++ command .expand

/-- `RESULT = <hex>` (R72): ERR is 0, OLEN the length, DOUT[0..OLEN) the bytes. -/
def State.resultIs (s : State) (out : List Byte) : Bool :=
  s.err == okCode && s.olen.toNat == out.length && s.output == out

/-- `FAILS <kind>` (R72): ERR is the code, OLEN is 0. -/
def State.fails (s : State) (e : ErrorKind) : Bool := s.err == e.code && s.olen == 0

end Sys2Proof.Machine
end

