-- ==== Sys2Proof/Safety.lean ====
section
/-! DEFINITION. What the claims are stated in: the invariant of every reachable state (spec/10_state.md R29), which
host transactions are legal (spec/20_memory.md R48, R49, R52), and the checks of each command in their order
(spec/60_exceptions.md R209, R211). -/

namespace Sys2Proof.Machine

/-- RK holds the whole schedule of a key of 16, 24 or 32 bytes, and zeros above it (10_state.md R23, R29(b)). -/
def State.HoldsSchedule (s : State) : Prop :=
  ∃ key : List Byte, (key.length = 16 ∨ key.length = 24 ∨ key.length = 32) ∧
    s.nr.toNat = key.length / 4 + 6 ∧
    ∀ i : Fin 15, s.rk[i] = if i.val ≤ s.nr.toNat then (expandKey key).2.getD i.val zeroBlock else zeroBlock

/-- What holds in every state reachable from reset by host transactions (10_state.md R29 (a) to (f); (g) is
`reservedBitsReadZero`'s), and that DIN and DOUT keep their canonical form within their capacity (log 10). -/
structure State.Inv (s : State) : Prop where
  /-- R29(a) -/
  noSchedule : s.ksv = false → s.nr = 0 ∧ s.rk = Vector.replicate 15 zeroBlock
  /-- R29(b) -/
  schedule : s.ksv = true → s.HoldsSchedule
  /-- R29(c) -/
  errorHasNoOutput : s.err ≠ 0 → s.olen = 0
  /-- R29(d) -/
  outputFits : s.olen.toNat ≤ Config.ocap
  /-- R29(e) -/
  chainClear : s.chain = zeroBlock
  /-- R29(f) -/
  errKnown : s.err.toNat ≤ 6
  /-- DIN in canonical form, within DCAP bytes (R21) -/
  dinWf : s.din.wf
  dinWithin : s.din.within Config.dcap
  /-- DOUT in canonical form, within DCAP + 255 bytes (R22) -/
  doutWf : s.dout.wf
  doutWithin : s.dout.within Config.ocap

/-- An address of a byte access: in KEYBUF, IVBUF, RK, DIN or DOUT (20_memory.md R44, R48). -/
def byteAddress (a : Word32) : Prop :=
  (0x100 ≤ a.toNat ∧ a.toNat ≤ 0x11F) ∨ (0x120 ≤ a.toNat ∧ a.toNat ≤ 0x12F) ∨
    (0x200 ≤ a.toNat ∧ a.toNat ≤ 0x2EF) ∨
    (0x40000000 ≤ a.toNat ∧ a.toNat < 0x40000000 + Config.dcap) ∨
    (0x80000000 ≤ a.toNat ∧ a.toNat < 0x80000000 + Config.ocap)

/-- An address of a register access (20_memory.md R49). -/
def registerAddress (a : Word32) : Prop := a ∈ [0x00, 0x04, 0x08, 0x0C, 0x10, 0x14]

/-- The transactions of the interface (20_memory.md R48, R49, R52; 70_reset_and_hazards.md R230). -/
def HostTxn.legal : HostTxn → Prop
  | .read8 a => byteAddress a
  | .write8 a _ => byteAddress a
  | .read32 a => registerAddress a
  | .write32 a _ => registerAddress a
  | .reset => True
  | .otherWidth _ _ => False

/-- DLEN > DCAP (R209). -/
def inputCheck (s : State) : Bool × ErrorKind := (Config.dcap < s.dlen.toNat, .illegalCommand)

/-- KSV = 0 (R209). -/
def scheduleCheck (s : State) : Bool × ErrorKind := (!s.ksv, .noKeySchedule)

/-- IVS = 1 and IVLEN != 16 (R209). -/
def ivCheck (ivs : Bool) (s : State) : Bool × ErrorKind := (ivs && s.ivlen != 16, .invalidBlockSize)

/-- DLEN mod 16 != 0 (R209). -/
def lengthCheck (applies : Bool) (s : State) : Bool × ErrorKind :=
  (applies && s.dlen.toNat % 16 != 0, .misalignedLength)

/-- unpad of the bytes fails (R209). -/
def paddingCheck (applies : Bool) (d : List Byte) (n : Nat) : Bool × ErrorKind :=
  (applies && !(unpadBytes d n).isOk, .invalidPadding)

/-- The checks of each command, in the order they are made, each true when it fails (60_exceptions.md R209). -/
def errorChecks : Instr → State → List (Bool × ErrorKind)
  | .expand, s => [(s.keylen != 16 && s.keylen != 24 && s.keylen != 32, .invalidKeySize)]
  | .encb, s => [inputCheck s, scheduleCheck s, (s.dlen != 16, .invalidBlockSize)]
  | .decb, s => [inputCheck s, scheduleCheck s, (s.dlen != 16, .invalidBlockSize)]
  | .encEcb nopad _, s => [inputCheck s, scheduleCheck s, lengthCheck nopad s]
  | .decEcb nopad _, s =>
    [inputCheck s, scheduleCheck s, lengthCheck true s,
      paddingCheck (!nopad) (runBlocks (ecbDecTurn s.decryptBlock) zeroBlock s.input) 16]
  | .encCbc nopad ivs, s => [inputCheck s, scheduleCheck s, ivCheck ivs s, lengthCheck nopad s]
  | .decCbc nopad ivs, s =>
    [inputCheck s, scheduleCheck s, ivCheck ivs s, lengthCheck true s,
      paddingCheck (!nopad)
        (runBlocks (cbcDecTurn s.decryptBlock) (if ivs then s.ivbuf else zeroBlock) s.input) 16]
  | .encCfb _ ivs, s => [inputCheck s, scheduleCheck s, ivCheck ivs s]
  | .decCfb _ ivs, s => [inputCheck s, scheduleCheck s, ivCheck ivs s]
  | .encOfb _ ivs, s => [inputCheck s, scheduleCheck s, ivCheck ivs s]
  | .decOfb _ ivs, s => [inputCheck s, scheduleCheck s, ivCheck ivs s]
  | .encCtr _ ivs, s => [inputCheck s, scheduleCheck s, ivCheck ivs s]
  | .decCtr _ ivs, s => [inputCheck s, scheduleCheck s, ivCheck ivs s]
  | .pad _, s => [inputCheck s]
  | .unpad bs, s => [inputCheck s, paddingCheck true s.input (blockSize bs)]

/-- The kind of the first check that fails, if any: "the first check that fails decides the error" (R209). -/
def firstFailing : List (Bool × ErrorKind) → Option ErrorKind
  | [] => none
  | (failed, e) :: rest => if failed then some e else firstFailing rest

/-- Block i of a sequence: bytes 16*i to 16*i + 15, or fewer at its end (20_memory.md R42). -/
def blockAt (d : List Byte) (i : Nat) : List Byte := (d.drop (16 * i)).take 16

/-- The initial CHAIN of a command of CBC, CFB, OFB or CTR (43_modes.md R151). -/
def State.initialChain (s : State) (ivs : Bool) : Block := if ivs then s.ivbuf else zeroBlock

/-- The operands of a mode command that takes an IV or counter are readable: the key schedule is there, the input fits
the buffer, and a supplied IV or counter is one block (43_modes.md R151, R154). -/
def State.modeReady (s : State) (ivs : Bool) : Prop :=
  s.ksv = true ∧ s.dlen.toNat ≤ Config.dcap ∧ (ivs = true → s.ivlen = 16)

/-- The command that undoes a command with the same options (43_modes.md R159, 44_padding.md R194). -/
def inverseCommand : Instr → Option Instr
  | .expand => none
  | .encb => some .decb
  | .decb => none
  | .encEcb nopad ivs => some (.decEcb nopad ivs)
  | .decEcb _ _ => none
  | .encCbc nopad ivs => some (.decCbc nopad ivs)
  | .decCbc _ _ => none
  | .encCfb nopad ivs => some (.decCfb nopad ivs)
  | .decCfb _ _ => none
  | .encOfb nopad ivs => some (.decOfb nopad ivs)
  | .decOfb _ _ => none
  | .encCtr nopad ivs => some (.decCtr nopad ivs)
  | .decCtr _ _ => none
  | .pad bs => some (.unpad bs)
  | .unpad _ => none

/-- Two states hold the same RK, NR and KSV. -/
def sameSchedule (s u : State) : Prop := s.rk = u.rk ∧ s.nr = u.nr ∧ s.ksv = u.ksv

/-- Two states hold the same DLEN and the same bytes DIN[0..DLEN). -/
def sameInput (s u : State) : Prop := s.dlen = u.dlen ∧ s.input = u.input

/-- Two states hold the same IVLEN and IVBUF, if the command reads them. -/
def sameIv (ivs : Bool) (s u : State) : Prop := ivs = true → s.ivlen = u.ivlen ∧ s.ivbuf = u.ivbuf

/-- Two states hold the same operands of a command: what 10_state.md R28 says it reads. -/
def sameOperands : Instr → State → State → Prop
  | .expand, s, u => s.keylen = u.keylen ∧ s.key = u.key
  | .encb, s, u => sameSchedule s u ∧ sameInput s u
  | .decb, s, u => sameSchedule s u ∧ sameInput s u
  | .encEcb _ _, s, u => sameSchedule s u ∧ sameInput s u
  | .decEcb _ _, s, u => sameSchedule s u ∧ sameInput s u
  | .encCbc _ ivs, s, u => sameSchedule s u ∧ sameInput s u ∧ sameIv ivs s u
  | .decCbc _ ivs, s, u => sameSchedule s u ∧ sameInput s u ∧ sameIv ivs s u
  | .encCfb _ ivs, s, u => sameSchedule s u ∧ sameInput s u ∧ sameIv ivs s u
  | .decCfb _ ivs, s, u => sameSchedule s u ∧ sameInput s u ∧ sameIv ivs s u
  | .encOfb _ ivs, s, u => sameSchedule s u ∧ sameInput s u ∧ sameIv ivs s u
  | .decOfb _ ivs, s, u => sameSchedule s u ∧ sameInput s u ∧ sameIv ivs s u
  | .encCtr _ ivs, s, u => sameSchedule s u ∧ sameInput s u ∧ sameIv ivs s u
  | .decCtr _ ivs, s, u => sameSchedule s u ∧ sameInput s u ∧ sameIv ivs s u
  | .pad _, s, u => sameInput s u
  | .unpad _, s, u => sameInput s u

/-- A block read as a 128-bit unsigned integer, byte 0 the most significant (20_memory.md R41(a)). -/
def counterValue (c : Block) : Nat := c.toList.foldl (fun n b => 256 * n + b.toNat) 0

end Sys2Proof.Machine
end

