-- ==== Sys2Proof/Certificates/Slice0/Obligations.lean ====
section
/-! DEFINITION. The statements about the model, each a proposition about every state or operand it names. -/

open Sys2Proof Sys2Proof.Machine

/-! ## Command words -/

/-- Encoding a command and decoding the word gives the command back, with every option bit and every block size; and a
word that decodes to a command is that command's one encoding. From 30_encoding.md sections 1 and 4. -/
def Obligations.DecodeAndEncodeAgree : Prop :=
  (∀ i : Instr, decode (encode i) = .ok i) ∧
  ∀ (c : Word32) (i : Instr), decode c = .ok i → encode i = c

/-- A word is rejected exactly when one of the clauses (a) to (f) of R66 holds, written here on the bits of the word; and
the write of such a word to CMD raises IllegalCommand and changes nothing else (R203: ERR, OLEN and CHAIN are what
a raise writes). 30_encoding.md R66. -/
def Obligations.IllegalWordsRaiseIllegalCommand : Prop :=
  ∀ (c : Word32),
    let op := c.toNat % 16
    let mode := c.toNat / 16 % 8
    let nopad := c.toNat / 128 % 2
    let ivs := c.toNat / 256 % 2
    let bs := c.toNat / 65536 % 256
    let illegal :=
      (c.toNat / 512 % 128 ≠ 0 ∨ c.toNat / 16777216 ≠ 0) ∨
      (op = 0 ∨ 8 ≤ op) ∨
      ((op = 4 ∨ op = 5) ∧ 5 ≤ mode) ∨
      (¬(op = 4 ∨ op = 5) ∧ mode ≠ 0) ∨
      (¬(op = 4 ∨ op = 5) ∧ (nopad ≠ 0 ∨ ivs ≠ 0)) ∨
      (¬(op = 6 ∨ op = 7) ∧ bs ≠ 0)
    ((∃ i, decode c = .ok i) ↔ ¬illegal) ∧
    (illegal → ∀ (s : State) (rest : List HostTxn), s.pending = .write32 0 c :: rest →
      step s = .next { s with pending := rest, err := 5, olen := 0, chain := zeroBlock })

/-- A word names a command of the opcode map exactly when its bits under the row's mask are the row's pattern, and 555
words are legal. 30_encoding.md section 4, the table of R69 (which the spec marks as derived). -/
def Obligations.OpcodeMapIsTheDecoder : Prop :=
  (∀ row ∈ opcodeMap, ∀ c : Word32,
    (∃ i, decode c = .ok i ∧ i.mnemonic = row.mnemonic) ↔ c &&& row.mask = row.pattern) ∧
  Nat.card { c : Word32 // ∃ i, decode c = .ok i } = 555

/-- A few command words, written out from 30_encoding.md R69 and R70, decode to the commands they stand for. -/
def Obligations.SampleWordsDecode : Prop :=
  decode 0x00000001 = .ok .expand ∧
  decode 0x00000003 = .ok .decb ∧
  decode 0x00000194 = .ok (.encCbc true true) ∧
  decode 0x00000085 = .ok (.decEcb true false) ∧
  decode 0x000001A4 = .ok (.encCfb true true) ∧
  decode 0x00000035 = .ok (.decOfb false false) ∧
  decode 0x00000144 = .ok (.encCtr false true) ∧
  decode 0x00080007 = .ok (.unpad 8)

/-- When the host's next transaction writes a word to CMD that decodes to a command, the step is that command's meaning on
the state with the transaction taken off the list; the meaning leaves the rest of the list alone. With no transaction
the core is idle. 10_state.md R12, 20_memory.md R51; the list is the model's own (log 3). -/
def Obligations.StepRunsTheDecodedCommand : Prop :=
  (∀ (s : State) (c : Word32) (rest : List HostTxn) (i : Instr),
    s.pending = .write32 0 c :: rest → decode c = .ok i →
    step s = exec i { s with pending := rest } ∧
    ∀ t, exec i { s with pending := rest } = .next t → t.pending = rest) ∧
  ∀ s : State, s.pending = [] → step s = .next s

/-- A word of the opcode table that decodes to a command is the command that the next step runs once the word is placed for
it. The placing is the model's own (log 3). 30_encoding.md section 4. -/
def Obligations.PlacedWordRunsItsCommand : Prop :=
  ∀ (s : State) (nbits w : Nat) (i : Instr), nbits ≤ 32 → decodeTableWord nbits w = some i →
    step (s.withFetchWord nbits w) = exec i s

/-! ## Field arithmetic and tables -/

/-- The laws of multiplication in GF(2^8) that 40_gf256.md section 1 derives from R81 and R82. -/
def Obligations.FieldMultiplicationLaws : Prop :=
  (∀ a b : Byte, gmul a b = gmul b a) ∧
  (∀ a : Byte, gmul a 0x00 = 0x00 ∧ gmul a 0x01 = a ∧ gmul a 0x02 = xtime a) ∧
  (∀ a b c : Byte, gmul a (b ^^^ c) = gmul a b ^^^ gmul a c) ∧
  (∀ a b c : Byte, gmul (gmul a b) c = gmul a (gmul b c)) ∧
  ∀ a : Byte, a ≠ 0x00 → ∃ b : Byte, gmul a b = 0x01 ∧ ∀ b' : Byte, gmul a b' = 0x01 → b' = b

/-- INVSBOX is the inverse permutation of SBOX. 40_gf256.md R87. -/
def Obligations.InverseSboxUndoesSbox : Prop :=
  ∀ a : Byte, invSbox (sbox a) = a ∧ sbox (invSbox a) = a

/-- The table SBOX is what the rule of R86 generates from the multiplicative inverse of R85; RCON[j+1] = xtime(RCON[j]) and
RCON[1] = 0x01 (R90). 40_gf256.md sections 2 and 3. -/
def Obligations.TablesFollowTheirRules : Prop :=
  (∀ a : Byte, sbox a = sboxRule a) ∧ rcon 1 = 0x01 ∧ ∀ j : Nat, 1 ≤ j → j < 10 → rcon (j + 1) = xtime (rcon j)

/-! ## Block transform -/

/-- ShiftRows and InvShiftRows on the elements of the state matrix: the new element (r, c) of ShiftRows is the old element
(r, (c + r) mod 4), the element (r, (c + r) mod 4) of InvShiftRows is the old (r, c), and each undoes the other.
42_block_transform.md R124, R125. -/
def Obligations.ShiftRowsRotatesTheRows : Prop :=
  ∀ (st : Block) (r c : Fin 4),
    (shiftRows st)[r.val + 4 * c.val] = st[r.val + 4 * ((c.val + r.val) % 4)]'(by omega) ∧
    (invShiftRows st)[r.val + 4 * ((c.val + r.val) % 4)]'(by omega) = st[r.val + 4 * c.val] ∧
    invShiftRows (shiftRows st) = st ∧ shiftRows (invShiftRows st) = st

/-- MixColumns on column c, written out as R126 writes it, and InvMixColumns as R127 writes it. 42_block_transform.md
section 2. -/
def Obligations.MixColumnsOnAColumn : Prop :=
  ∀ (st : Block) (c : Fin 4),
    let a0 := st[4 * c.val]
    let a1 := st[4 * c.val + 1]
    let a2 := st[4 * c.val + 2]
    let a3 := st[4 * c.val + 3]
    ((mixColumns st)[4 * c.val] = gmul 0x02 a0 ^^^ gmul 0x03 a1 ^^^ a2 ^^^ a3 ∧
      (mixColumns st)[4 * c.val + 1] = a0 ^^^ gmul 0x02 a1 ^^^ gmul 0x03 a2 ^^^ a3 ∧
      (mixColumns st)[4 * c.val + 2] = a0 ^^^ a1 ^^^ gmul 0x02 a2 ^^^ gmul 0x03 a3 ∧
      (mixColumns st)[4 * c.val + 3] = gmul 0x03 a0 ^^^ a1 ^^^ a2 ^^^ gmul 0x02 a3) ∧
    ((invMixColumns st)[4 * c.val] = gmul 0x0e a0 ^^^ gmul 0x0b a1 ^^^ gmul 0x0d a2 ^^^ gmul 0x09 a3 ∧
      (invMixColumns st)[4 * c.val + 1] = gmul 0x09 a0 ^^^ gmul 0x0e a1 ^^^ gmul 0x0b a2 ^^^ gmul 0x0d a3 ∧
      (invMixColumns st)[4 * c.val + 2] = gmul 0x0d a0 ^^^ gmul 0x09 a1 ^^^ gmul 0x0e a2 ^^^ gmul 0x0b a3 ∧
      (invMixColumns st)[4 * c.val + 3] = gmul 0x0b a0 ^^^ gmul 0x0d a1 ^^^ gmul 0x09 a2 ^^^ gmul 0x0e a3)

/-- InvMixColumns undoes MixColumns and MixColumns undoes InvMixColumns. 42_block_transform.md section 2 (R127: "the inverse
of M over the field", which the spec marks as derived). -/
def Obligations.InvMixColumnsUndoesMixColumns : Prop :=
  ∀ st : Block, invMixColumns (mixColumns st) = st ∧ mixColumns (invMixColumns st) = st

/-- "For all blocks b and all schedules: D(E(b, rk, Nr), rk, Nr) = b and E(D(b, rk, Nr), rk, Nr) = b", for every content of
RK and every number of rounds. 42_block_transform.md section 3 (R129, R132, which the spec marks as derived). For a number
of rounds above 14, which no schedule has, the round keys above slot 14 are the zero block of log 7, the model's choice. -/
def Obligations.BlockTransformsAreInverse : Prop :=
  ∀ (rk : Vector Block 15) (nr : Nat) (b : Block),
    decryptBlock rk nr (encryptBlock rk nr b) = b ∧ encryptBlock rk nr (decryptBlock rk nr b) = b

/-! ## Key schedule -/

/-- `expand(key)` returns Nr = Nk + 6 and the Nr + 1 round keys packed from words w that obey the recurrence of R101.
41_key_schedule.md R101, with R102 (packing), R103 (word operations) and R104 (sizes). -/
def Obligations.ExpandFollowsTheRecurrence : Prop :=
  ∀ key : List Byte, key.length = 16 ∨ key.length = 24 ∨ key.length = 32 →
    let nk := key.length / 4
    let nr := nk + 6
    (expandKey key).1 = nr ∧ (expandKey key).2.length = nr + 1 ∧
    ∃ w : Nat → KeyWord,
      (∀ i < nk, ∀ j : Fin 4, (w i)[j] = key.getD (4 * i + j.val) 0) ∧
      (∀ i, nk ≤ i → i < 4 * (nr + 1) →
        w i = xorWord (w (i - nk))
          (if i % nk = 0 then xorWord (subWord (rotWord (w (i - 1)))) (rconWord (i / nk))
           else if nk = 8 ∧ i % nk = 4 then subWord (w (i - 1))
           else w (i - 1))) ∧
      ∀ r ≤ nr, ∀ j : Fin 16,
        ((expandKey key).2.getD r zeroBlock)[j] = (w (4 * r + j.val / 4))[j.val % 4]'(by omega)

/-- The first key bytes are the first round keys: byte j of the key is byte j mod 16 of round key j div 16.
41_key_schedule.md section 2 (the consequences of R102, which the spec marks as derived). -/
def Obligations.KeyBytesStartTheSchedule : Prop :=
  ∀ key : List Byte, key.length = 16 ∨ key.length = 24 ∨ key.length = 32 → ∀ j < key.length,
    ((expandKey key).2.getD (j / 16) zeroBlock)[j % 16] = key.getD j 0

/-- EXPAND: with KEYLEN 16, 24 or 32 it stores the whole schedule of KEYBUF[0..KEYLEN), zeros in the slots above NR, sets NR
and KSV and clears OLEN and ERR; with any other KEYLEN it raises InvalidKeySize and RK, NR and KSV keep their values.
Nothing else changes in either case. 41_key_schedule.md R100. -/
def Obligations.ExpandStoresTheSchedule : Prop :=
  ∀ s : State,
    ((s.keylen = 16 ∨ s.keylen = 24 ∨ s.keylen = 32) →
      ∃ t, exec .expand s = .next t ∧
        t.nr.toNat = s.keylen.toNat / 4 + 6 ∧
        (∀ i : Fin 15, t.rk[i] =
          if i.val ≤ s.keylen.toNat / 4 + 6
          then (expandKey (s.keybuf.toList.take s.keylen.toNat)).2.getD i.val zeroBlock
          else zeroBlock) ∧
        t = { s with rk := t.rk, nr := t.nr, ksv := true, olen := 0, err := 0 }) ∧
    (¬(s.keylen = 16 ∨ s.keylen = 24 ∨ s.keylen = 32) →
      exec .expand s = .next { s with err := 1, olen := 0, chain := zeroBlock })

/-- Whatever the step, RK, NR and KSV change only by a reset event or by a write of EXPAND to CMD with KEYLEN 16, 24 or 32,
and only a reset event clears KSV. 10_state.md R23 and R27, 41_key_schedule.md R107. -/
def Obligations.OnlyExpandAndResetChangeTheSchedule : Prop :=
  ∀ s t : State, step s = .next t →
    ((t.rk ≠ s.rk ∨ t.nr ≠ s.nr ∨ t.ksv ≠ s.ksv) →
      s.pending.head? = some .reset ∨
        (s.pending.head? = some (.write32 0 0x00000001) ∧ (s.keylen = 16 ∨ s.keylen = 24 ∨ s.keylen = 32))) ∧
    (s.ksv = true → t.ksv = false → s.pending.head? = some .reset)

/-! ## ENCB and DECB -/

/-- ENCB and DECB complete when there is a key schedule and DLEN is 16, and their result is E, or D, of DIN[0..16).
42_block_transform.md section 4 (R130, R131). -/
def Obligations.BlockCommandsComplete : Prop :=
  ∀ s : State, s.ksv = true → s.dlen = 16 →
    (∃ t, exec .encb s = .next t ∧ t.err = 0 ∧ t.olen = 16 ∧
      t.output = (encryptBlock s.rk s.nr.toNat (blockOf s.input)).toList ∧ t.chain = s.chain) ∧
    (∃ t, exec .decb s = .next t ∧ t.err = 0 ∧ t.olen = 16 ∧
      t.output = (decryptBlock s.rk s.nr.toNat (blockOf s.input)).toList ∧ t.chain = s.chain)

/-- With DLEN = 16, ENCB and ENC.ECB NOPAD do the same, and so do DECB and DEC.ECB NOPAD. 42_block_transform.md section 4
(the corner cases of R130 and R131, which the spec marks as derived). -/
def Obligations.BlockCommandsAreOneBlockEcb : Prop :=
  ∀ (s : State) (ivs : Bool), s.dlen = 16 →
    exec .encb s = exec (.encEcb true ivs) s ∧ exec .decb s = exec (.decEcb true ivs) s

/-! ## Modes -/

/-- ENC.ECB completes when there is a key schedule, the input fits DIN and, with NOPAD, DLEN is a multiple of 16: block i of
the result is E of block i of the padded, or with NOPAD the plain, input. 43_modes.md section 2 (R160). -/
def Obligations.EncEcbCompletes : Prop :=
  ∀ (nopad ivs : Bool) (s : State), s.ksv = true → s.dlen.toNat ≤ Config.dcap →
    (nopad = true → s.dlen.toNat % 16 = 0) →
    let d := if nopad then s.input else padBytes s.input 16
    ∃ t, exec (.encEcb nopad ivs) s = .next t ∧ t.err = 0 ∧ t.olen.toNat = d.length ∧ t.chain = s.chain ∧
      ∀ i < d.length / 16, blockAt t.output i = (s.encryptBlock (blockOf (blockAt d i))).toList

/-- DEC.ECB completes when there is a key schedule, the input fits DIN, DLEN is a multiple of 16 and, without NOPAD, the
decrypted bytes are validly padded: the decrypted bytes are D of each input block, and the result is these bytes, with
their padding removed unless NOPAD. 43_modes.md section 2 (R161). -/
def Obligations.DecEcbCompletes : Prop :=
  ∀ (nopad ivs : Bool) (s : State) (p out : List Byte), s.ksv = true → s.dlen.toNat ≤ Config.dcap →
    s.dlen.toNat % 16 = 0 → p.length = s.dlen.toNat →
    (∀ i < p.length / 16, blockAt p i = (s.decryptBlock (blockOf (blockAt s.input i))).toList) →
    (if nopad then out = p else unpadBytes p 16 = .ok out) →
    ∃ t, exec (.decEcb nopad ivs) s = .next t ∧ t.err = 0 ∧ t.olen.toNat = out.length ∧ t.output = out ∧
      t.chain = s.chain

/-- ENC.CBC: ciphertext[i] = E(plaintext[i] XOR prev), where prev is the IV for i = 0 and ciphertext[i-1] after, over the
padded, or with NOPAD the plain, input. 43_modes.md section 3 (R162). -/
def Obligations.EncCbcCompletes : Prop :=
  ∀ (nopad ivs : Bool) (s : State), s.modeReady ivs → (nopad = true → s.dlen.toNat % 16 = 0) →
    let d := if nopad then s.input else padBytes s.input 16
    ∃ t, exec (.encCbc nopad ivs) s = .next t ∧ t.err = 0 ∧ t.olen.toNat = d.length ∧ t.chain = zeroBlock ∧
      ∀ i < d.length / 16,
        let prev := if i = 0 then s.initialChain ivs else blockOf (blockAt t.output (i - 1))
        blockAt t.output i = (s.encryptBlock (xorBlock (blockOf (blockAt d i)) prev)).toList

/-- DEC.CBC: plaintext[i] = D(ciphertext[i]) XOR prev, where prev is the IV for i = 0 and ciphertext[i-1] after; the result
is these bytes, with their padding removed unless NOPAD. 43_modes.md section 3 (R163). -/
def Obligations.DecCbcCompletes : Prop :=
  ∀ (nopad ivs : Bool) (s : State) (p out : List Byte), s.modeReady ivs → s.dlen.toNat % 16 = 0 →
    p.length = s.dlen.toNat →
    (∀ i < p.length / 16,
      let prev := if i = 0 then s.initialChain ivs else blockOf (blockAt s.input (i - 1))
      blockAt p i = (xorBlock (s.decryptBlock (blockOf (blockAt s.input i))) prev).toList) →
    (if nopad then out = p else unpadBytes p 16 = .ok out) →
    ∃ t, exec (.decCbc nopad ivs) s = .next t ∧ t.err = 0 ∧ t.olen.toNat = out.length ∧ t.output = out ∧
      t.chain = zeroBlock

/-- ENC.CFB: byte j of the result is byte j of the input XOR byte j mod 16 of E(prev), where prev is the IV for block 0 and
the ciphertext block before after; any length. 43_modes.md section 4 (R164). -/
def Obligations.EncCfbCompletes : Prop :=
  ∀ (nopad ivs : Bool) (s : State), s.modeReady ivs →
    ∃ t, exec (.encCfb nopad ivs) s = .next t ∧ t.err = 0 ∧ t.olen = s.dlen ∧ t.chain = zeroBlock ∧
      ∀ j < s.dlen.toNat,
        let prev := if j / 16 = 0 then s.initialChain ivs else blockOf (blockAt t.output (j / 16 - 1))
        t.doutByte j = s.dinByte j ^^^ (s.encryptBlock prev)[j % 16]

/-- DEC.CFB: as ENC.CFB, with E, but prev is the ciphertext block of the input. 43_modes.md section 4 (R165). -/
def Obligations.DecCfbCompletes : Prop :=
  ∀ (nopad ivs : Bool) (s : State), s.modeReady ivs →
    ∃ t, exec (.decCfb nopad ivs) s = .next t ∧ t.err = 0 ∧ t.olen = s.dlen ∧ t.chain = zeroBlock ∧
      ∀ j < s.dlen.toNat,
        let prev := if j / 16 = 0 then s.initialChain ivs else blockOf (blockAt s.input (j / 16 - 1))
        t.doutByte j = s.dinByte j ^^^ (s.encryptBlock prev)[j % 16]

/-- ENC.OFB and DEC.OFB: the keystream of block k is E applied k + 1 times to the IV; any length. 43_modes.md section 5
(R166, R167). -/
def Obligations.OfbCompletes : Prop :=
  ∀ (nopad ivs : Bool) (s : State), s.modeReady ivs → ∀ i ∈ [Instr.encOfb nopad ivs, Instr.decOfb nopad ivs],
    ∃ t, exec i s = .next t ∧ t.err = 0 ∧ t.olen = s.dlen ∧ t.chain = zeroBlock ∧
      ∀ j < s.dlen.toNat,
        t.doutByte j = s.dinByte j ^^^ (s.encryptBlock^[j / 16 + 1] (s.initialChain ivs))[j % 16]

/-- ENC.CTR and DEC.CTR: block k uses the counter of value (ctr0 + k) mod 2^128; any length; IVBUF is not advanced.
43_modes.md section 6 (R168, R169). -/
def Obligations.CtrCompletes : Prop :=
  ∀ (nopad ivs : Bool) (s : State), s.modeReady ivs → ∀ i ∈ [Instr.encCtr nopad ivs, Instr.decCtr nopad ivs],
    ∃ t, exec i s = .next t ∧ t.err = 0 ∧ t.olen = s.dlen ∧ t.chain = zeroBlock ∧ t.ivbuf = s.ivbuf ∧
      ∀ j < s.dlen.toNat, ∃ counter : Block,
        counterValue counter = (counterValue (s.initialChain ivs) + j / 16) % 2 ^ 128 ∧
        t.doutByte j = s.dinByte j ^^^ (s.encryptBlock counter)[j % 16]

/-- inc128 adds 1 modulo 2^128 to the block read as a big-endian 128-bit integer, and no two blocks have the same value.
43_modes.md R156. -/
def Obligations.CounterIncrementIsPlusOne : Prop :=
  (∀ c : Block, counterValue (inc128 c) = (counterValue c + 1) % 2 ^ 128) ∧
  ∀ c c' : Block, counterValue c = counterValue c' → c = c'

/-- "DEC.OFB computes exactly what ENC.OFB computes, and DEC.CTR exactly what ENC.CTR computes". 43_modes.md section 1
(R158). -/
def Obligations.SymmetricModes : Prop :=
  ∀ (nopad ivs : Bool) (s : State),
    exec (.decOfb nopad ivs) s = exec (.encOfb nopad ivs) s ∧ exec (.decCtr nopad ivs) s = exec (.encCtr nopad ivs) s

/-- NOPAD changes nothing in CFB, OFB and CTR, and IVS changes nothing in ECB. 30_encoding.md section 2 (R63, R64). -/
def Obligations.DontCareBitsChangeNothing : Prop :=
  ∀ (b b' : Bool) (s : State),
    (∀ ivs : Bool,
      exec (.encCfb b ivs) s = exec (.encCfb b' ivs) s ∧ exec (.decCfb b ivs) s = exec (.decCfb b' ivs) s ∧
      exec (.encOfb b ivs) s = exec (.encOfb b' ivs) s ∧ exec (.decOfb b ivs) s = exec (.decOfb b' ivs) s ∧
      exec (.encCtr b ivs) s = exec (.encCtr b' ivs) s ∧ exec (.decCtr b ivs) s = exec (.decCtr b' ivs) s) ∧
    ∀ nopad : Bool,
      exec (.encEcb nopad b) s = exec (.encEcb nopad b') s ∧ exec (.decEcb nopad b) s = exec (.decEcb nopad b') s

/-- "With IVS = 1 and IVLEN = 16, an IVBUF that holds 16 zero bytes gives the same result as IVS = 0", and BS = 16 gives the
same as BS = 0. 43_modes.md section 1 (R151), 30_encoding.md section 2 (R65). -/
def Obligations.DefaultsEqualTheirValues : Prop :=
  ∀ s : State,
    (s.ivlen = 16 → s.ivbuf = zeroBlock → ∀ nopad : Bool,
      exec (.encCbc nopad true) s = exec (.encCbc nopad false) s ∧
      exec (.decCbc nopad true) s = exec (.decCbc nopad false) s ∧
      exec (.encCfb nopad true) s = exec (.encCfb nopad false) s ∧
      exec (.decCfb nopad true) s = exec (.decCfb nopad false) s ∧
      exec (.encOfb nopad true) s = exec (.encOfb nopad false) s ∧
      exec (.decOfb nopad true) s = exec (.decOfb nopad false) s ∧
      exec (.encCtr nopad true) s = exec (.encCtr nopad false) s ∧
      exec (.decCtr nopad true) s = exec (.decCtr nopad false) s) ∧
    exec (.pad 16) s = exec (.pad 0) s ∧ exec (.unpad 16) s = exec (.unpad 0) s

/-- If ENCB, an ENC command or PAD succeeds and its result is the input of its inverse command, under the same schedule,
IVBUF and IVLEN, then the inverse command succeeds and its result is the first command's input: DEC.m undoes ENC.m with
the same options (43_modes.md section 1, R159), DECB undoes ENCB (42_block_transform.md sections 3 and 4) and UNPAD undoes
PAD (44_padding.md sections 1 and 2). The other direction is `Obligations.EncryptionUndoesDecryption`. -/
def Obligations.DecryptionUndoesEncryption : Prop :=
  ∀ (i j : Instr) (s t u : State), inverseCommand i = some j → exec i s = .next t → t.err = 0 →
    sameSchedule u t → u.ivbuf = t.ivbuf → u.ivlen = t.ivlen →
    u.dlen = t.olen → u.dlen.toNat ≤ Config.dcap → u.input = t.output →
    ∃ v, exec j u = .next v ∧ v.err = 0 ∧ v.olen = s.dlen ∧ v.output = s.input

/-- OLEN after every command that succeeds: 0 for EXPAND and 16 for ENCB and DECB (10_state.md section 3, R17;
41_key_schedule.md R100; 42_block_transform.md R130, R131), the table of 43_modes.md section 1 for the mode commands (R157,
which the spec marks as derived), and the padded or unpadded length for PAD and UNPAD (44_padding.md section 2). -/
def Obligations.OutputLengths : Prop :=
  ∀ (i : Instr) (s t : State), exec i s = .next t → t.err = 0 →
    match i with
    | .expand => t.olen = 0
    | .encb | .decb => t.olen = 16
    | .encEcb nopad _ | .encCbc nopad _ =>
      t.olen.toNat = if nopad then s.dlen.toNat else s.dlen.toNat + 16 - s.dlen.toNat % 16
    | .decEcb nopad _ =>
      let p := runBlocks (ecbDecTurn s.decryptBlock) zeroBlock s.input
      if nopad then t.olen = s.dlen else t.olen.toNat + (p.getD (s.dlen.toNat - 1) 0).toNat = s.dlen.toNat
    | .decCbc nopad ivs =>
      let p := runBlocks (cbcDecTurn s.decryptBlock) (s.initialChain ivs) s.input
      if nopad then t.olen = s.dlen else t.olen.toNat + (p.getD (s.dlen.toNat - 1) 0).toNat = s.dlen.toNat
    | .encCfb _ _ | .decCfb _ _ | .encOfb _ _ | .decOfb _ _ | .encCtr _ _ | .decCtr _ _ => t.olen = s.dlen
    | .pad bs => t.olen.toNat = s.dlen.toNat + blockSize bs - s.dlen.toNat % blockSize bs
    | .unpad _ => t.olen.toNat + (s.dinByte (s.dlen.toNat - 1)).toNat = s.dlen.toNat

/-! ## Padding -/

/-- pad appends 1 to n bytes so that the length is a positive multiple of n, all zero but the last, which holds their
number. 44_padding.md R190. -/
def Obligations.PadAppendsZerosAndTheCount : Prop :=
  ∀ (d : List Byte) (n : Nat), 1 ≤ n → n ≤ 255 →
    ∃ k, 1 ≤ k ∧ k ≤ n ∧ k = n - d.length % n ∧
      (padBytes d n).length = d.length + k ∧ (padBytes d n).length % n = 0 ∧
      (padBytes d n).take d.length = d ∧
      (∀ j, d.length ≤ j → j < d.length + k - 1 → (padBytes d n).getD j 1 = 0) ∧
      (padBytes d n).getD (d.length + k - 1) 0 = BitVec.ofNat 8 k ∧
      ∀ m, d.length < m → m % n = 0 → (padBytes d n).length ≤ m

/-- unpad fails with InvalidPadding exactly when the length is zero or not a multiple of the block size, the final byte is 0
or exceeds the block size, or one of the other bytes it counts is not zero; else it gives the bytes before the padding.
44_padding.md R191. -/
def Obligations.UnpadChecksStrictly : Prop :=
  ∀ (d : List Byte) (n : Nat), 1 ≤ n → n ≤ 255 →
    let k := (d.getD (d.length - 1) 0).toNat
    let bad := d.length = 0 ∨ d.length % n ≠ 0 ∨ k = 0 ∨ n < k ∨
      ∃ j, d.length - k ≤ j ∧ j + 2 ≤ d.length ∧ d.getD j 0 ≠ 0
    (bad → unpadBytes d n = .error .invalidPadding) ∧ (¬bad → unpadBytes d n = .ok (d.take (d.length - k)))

/-- `unpad(pad(x, n), n) == x`, and for every y that unpad accepts, pad(unpad(y, n), n) = y. 44_padding.md section 1 (R194,
which the spec marks as derived). -/
def Obligations.PadAndUnpadAreInverse : Prop :=
  ∀ n : Nat, 1 ≤ n → n ≤ 255 →
    (∀ x : List Byte, unpadBytes (padBytes x n) n = .ok x) ∧
    ∀ x y : List Byte, unpadBytes y n = .ok x → padBytes x n = y

/-- PAD completes for every input that fits DIN, with a key schedule or without, and UNPAD for every input that fits DIN
and is validly padded. 44_padding.md section 2 (R192, R193). -/
def Obligations.PaddingCommandsComplete : Prop :=
  ∀ (bs : BitVec 8) (s : State), s.dlen.toNat ≤ Config.dcap →
    let n := if bs = 0 then 16 else bs.toNat
    (∃ t, exec (.pad bs) s = .next t ∧ t.err = 0 ∧ t.olen.toNat = (padBytes s.input n).length ∧
      t.output = padBytes s.input n ∧ t.chain = s.chain) ∧
    ∀ out, unpadBytes s.input n = .ok out →
      ∃ t, exec (.unpad bs) s = .next t ∧ t.err = 0 ∧ t.olen.toNat = out.length ∧ t.output = out ∧ t.chain = s.chain

/-! ## Errors -/

/-- The first check that fails, in the order of the table of R209, decides the error and nothing else of the command
happens; when no check fails the command succeeds. 60_exceptions.md sections 3 and 4 (R209, which the spec marks as
derived, and the order of R211). -/
def Obligations.FirstFailingCheckDecides : Prop :=
  ∀ (i : Instr) (s : State),
    match firstFailing (errorChecks i s) with
    | some e => exec i s = .next { s with err := e.code, olen := 0, chain := zeroBlock }
    | none => ∃ t, exec i s = .next t ∧ t.err = 0

/-- A failed command writes the code of its error to ERR, 0 to OLEN and zeros to CHAIN, and nothing else changes.
60_exceptions.md R203. -/
def Obligations.FailedCommandChangesOnlyErrAndOlen : Prop :=
  ∀ (i : Instr) (s t : State), exec i s = .next t → t.err ≠ 0 →
    t = { s with err := t.err, olen := 0, chain := zeroBlock } ∧ ∃ e : ErrorKind, t.err = e.code

/-- Every write to CMD, in every state, succeeds or raises exactly one of the six error kinds; the machine never stops at
one. 60_exceptions.md section 1 (R223, which the spec marks as derived). -/
def Obligations.EveryCommandWordHasAnOutcome : Prop :=
  ∀ (c : Word32) (s : State) (rest : List HostTxn), s.pending = .write32 0 c :: rest →
    ∃ t, step s = .next t ∧ (t.err = 0 ∨ t.err.toNat ∈ [1, 2, 3, 4, 5, 6])

/-- With DLEN > DCAP every command but EXPAND raises IllegalCommand, whatever else is wrong with it. 30_encoding.md R67. -/
def Obligations.OverlongInputIsIllegal : Prop :=
  ∀ (i : Instr) (s : State), i ≠ .expand → Config.dcap < s.dlen.toNat →
    exec i s = .next { s with err := 5, olen := 0, chain := zeroBlock }

/-- Without a key schedule ENCB, DECB and every ENC and DEC command raises NoKeySchedule, whatever its operands, unless the
input does not fit DIN; with a key schedule no command raises it, and EXPAND, PAD and UNPAD never do.
60_exceptions.md R206. -/
def Obligations.NoKeyScheduleComesBeforeOperands : Prop :=
  ∀ (i : Instr) (s : State),
    ((∀ bs, i ≠ .pad bs ∧ i ≠ .unpad bs) → i ≠ .expand → s.ksv = false → s.dlen.toNat ≤ Config.dcap →
      exec i s = .next { s with err := 6, olen := 0, chain := zeroBlock }) ∧
    (s.ksv = true ∨ i = .expand ∨ (∃ bs, i = .pad bs ∨ i = .unpad bs) → ∀ t, exec i s = .next t → t.err ≠ 6)

/-! ## What a command leaves unchanged -/

/-- No command changes KEYBUF, KEYLEN, IVBUF, IVLEN, DIN or DLEN; every command but EXPAND leaves RK, NR and KSV; CHAIN is
unchanged or cleared, and ECB, ENCB, DECB, EXPAND, PAD and UNPAD do not touch it when they succeed. 10_state.md section
8 (R28, which the spec marks as derived), R24. The model's own fields (logs 2, 3 and 4) are unchanged too. -/
def Obligations.CommandsLeaveTheirOperandsUnchanged : Prop :=
  ∀ (i : Instr) (s t : State), exec i s = .next t →
    t.keybuf = s.keybuf ∧ t.keylen = s.keylen ∧ t.ivbuf = s.ivbuf ∧ t.ivlen = s.ivlen ∧
    t.din = s.din ∧ t.dlen = s.dlen ∧ t.resets = s.resets ∧ t.pending = s.pending ∧ t.reply = s.reply ∧
    (i ≠ .expand → t.rk = s.rk ∧ t.nr = s.nr ∧ t.ksv = s.ksv) ∧
    (t.chain = s.chain ∨ t.chain = zeroBlock) ∧
    (t.err = 0 →
      (i ∈ [.expand, .encb, .decb] ∨ (∃ nopad ivs, i = .encEcb nopad ivs ∨ i = .decEcb nopad ivs) ∨
        ∃ bs, i = .pad bs ∨ i = .unpad bs) → t.chain = s.chain)

/-- Every byte the host can read keeps its value over a command, but for DOUT[0..OLEN) after a command that succeeds and,
after EXPAND, for RK; a failed command and EXPAND write no byte of DOUT. 10_state.md R22. -/
def Obligations.CommandsWriteOnlyTheirOutput : Prop :=
  ∀ (i : Instr) (s t : State) (a : Word32), exec i s = .next t →
    (i ≠ .expand → ¬(0x80000000 ≤ a.toNat ∧ a.toNat < 0x80000000 + t.olen.toNat) → t.read8 a = s.read8 a) ∧
    (i = .expand → ¬(0x200 ≤ a.toNat ∧ a.toNat ≤ 0x2EF) → t.read8 a = s.read8 a) ∧
    (t.err ≠ 0 ∨ i = .expand → t.dout = s.dout) ∧
    ∀ k, t.olen.toNat ≤ k → t.doutByte k = s.doutByte k

/-- Writing the same command word twice in a row gives the same state as writing it once. 20_memory.md section 4 (R50, which
the spec marks as derived). -/
def Obligations.CommandWrittenTwiceEqualsOnce : Prop :=
  ∀ (c : Word32) (s t : State), runCommand c s = .next t → runCommand c t = .next t

/-- The outcome of a command depends only on the operands R28 names for it: two states that agree on them get the same ERR
and OLEN and, on success, the same output and, for EXPAND, the same schedule. So KEYBUF never influences a cipher
command, DIN beyond DLEN no command, and IVBUF no command with IVS = 0. 10_state.md section 8, 20_memory.md section 5. -/
def Obligations.ResultsDependOnlyOnOperands : Prop :=
  ∀ (i : Instr) (s u t v : State), sameOperands i s u → exec i s = .next t → exec i u = .next v →
    t.err = v.err ∧ t.olen = v.olen ∧
    (t.err = 0 → t.output = v.output ∧ (i = .expand → sameSchedule t v))

/-! ## Host transactions -/

/-- Where the bytes and registers stand in the address map. 20_memory.md section 3 (R44), section 4 (R48, R49), 10_state.md
section 3. -/
def Obligations.AddressMapReads : Prop :=
  ∀ s : State,
    (∀ i : Fin 32, s.read8 (0x100 + BitVec.ofNat 32 i.val) = some s.keybuf[i]) ∧
    (∀ i : Fin 16, s.read8 (0x120 + BitVec.ofNat 32 i.val) = some s.ivbuf[i]) ∧
    (∀ (i : Fin 15) (j : Fin 16), s.read8 (0x200 + BitVec.ofNat 32 (16 * i.val + j.val)) = some s.rk[i][j]) ∧
    (∀ i < Config.dcap, s.read8 (0x40000000 + BitVec.ofNat 32 i) = some (s.dinByte i)) ∧
    (∀ i < Config.dcap + 255, s.read8 (0x80000000 + BitVec.ofNat 32 i) = some (s.doutByte i)) ∧
    s.read32 0x00 = some 0 ∧ s.read32 0x04 = some s.statusWord ∧
    s.read32 0x08 = some (s.keylen.setWidth 32) ∧ s.read32 0x0C = some (s.ivlen.setWidth 32) ∧
    s.read32 0x10 = some s.dlen ∧ s.read32 0x14 = some s.olen

/-- HostWrite8 to KEYBUF, IVBUF or DIN stores the byte and changes nothing else that can be read; to RK or DOUT it is
ignored. 20_memory.md R48. -/
def Obligations.HostByteWrites : Prop :=
  ∀ (s : State) (a : Word32) (b : Byte) (rest : List HostTxn), s.pending = .write8 a b :: rest →
    (((0x100 ≤ a.toNat ∧ a.toNat ≤ 0x12F) ∨ (0x40000000 ≤ a.toNat ∧ a.toNat < 0x40000000 + Config.dcap)) →
      ∃ t, step s = .next t ∧ t.read8 a = some b ∧ (∀ a', a' ≠ a → t.read8 a' = s.read8 a') ∧
        (∀ a', t.read32 a' = s.read32 a') ∧ t.chain = s.chain ∧ t.pending = rest ∧ t.reply = s.reply) ∧
    (((0x200 ≤ a.toNat ∧ a.toNat ≤ 0x2EF) ∨
        (0x80000000 ≤ a.toNat ∧ a.toNat < 0x80000000 + (Config.dcap + 255))) →
      step s = .next { s with pending := rest })

/-- HostWrite32: KEYLEN and IVLEN store bits 7:0, DLEN all bits; STATUS and OLEN ignore the write. 20_memory.md section 4
(R49), 10_state.md section 3 (R13 to R17). -/
def Obligations.HostRegisterWrites : Prop :=
  ∀ (s : State) (v : Word32) (rest : List HostTxn),
    (s.pending = .write32 0x08 v :: rest →
      ∃ t, step s = .next t ∧ t = { s with pending := rest, keylen := t.keylen } ∧
        t.read32 0x08 = some (v &&& 0xFF)) ∧
    (s.pending = .write32 0x0C v :: rest →
      ∃ t, step s = .next t ∧ t = { s with pending := rest, ivlen := t.ivlen } ∧
        t.read32 0x0C = some (v &&& 0xFF)) ∧
    (s.pending = .write32 0x10 v :: rest → step s = .next { s with pending := rest, dlen := v }) ∧
    (s.pending = .write32 0x04 v :: rest → step s = .next { s with pending := rest }) ∧
    (s.pending = .write32 0x14 v :: rest → step s = .next { s with pending := rest })

/-- A host read returns the byte or register it names and has no other effect. 20_memory.md section 4 (R48, R49; R50). The
value returned stands in the model's own field `reply` (log 4). -/
def Obligations.HostReadsHaveNoSideEffect : Prop :=
  ∀ (s : State) (a : Word32) (rest : List HostTxn),
    (∀ b, s.pending = .read8 a :: rest → s.read8 a = some b →
      step s = .next { s with pending := rest, reply := some (.byte b) }) ∧
    ∀ v, s.pending = .read32 a :: rest → s.read32 a = some v →
      step s = .next { s with pending := rest, reply := some (.word v) }

/-- A step is refused exactly when the host's next access is not a transaction of the interface: a byte access outside
KEYBUF, IVBUF, RK, DIN and DOUT, a 32-bit access to anything but the six registers, or an access of another width.
20_memory.md section 4 (R48, R49, R52). That an access of any other width is refused at every address, the 16-bit access to
a buffer among them, which R52's list does not name, is the model's reading (log 5). -/
def Obligations.OnlyNonTransactionsAreRefused : Prop :=
  ∀ s : State,
    (∃ r, step s = .refused r) ↔ ∃ t rest, s.pending = t :: rest ∧ ¬t.legal

/-- The word STATUS: ERR in bits 3:0, KSV in bit 4, NR in bits 11:8, the reserved bits 7:5 and 31:12 zero; bits 31:8 of
KEYLEN and IVLEN read 0. 10_state.md section 3 (R13 to R15). -/
def Obligations.ReservedBitsReadZero : Prop :=
  ∀ s : State,
    (∃ v, s.read32 0x04 = some v ∧ v.extractLsb' 0 4 = s.err ∧ v.getLsbD 4 = s.ksv ∧ v.extractLsb' 5 3 = 0 ∧
      v.extractLsb' 8 4 = s.nr ∧ v.extractLsb' 12 20 = 0) ∧
    (∃ v, s.read32 0x08 = some v ∧ v.extractLsb' 0 8 = s.keylen ∧ v.extractLsb' 8 24 = 0) ∧
    ∃ v, s.read32 0x0C = some v ∧ v.extractLsb' 0 8 = s.ivlen ∧ v.extractLsb' 8 24 = 0

/-! ## Reset and the invariant -/

/-- The reset event, from every state: every register 0, KEYBUF, IVBUF, RK and CHAIN zeros, no key schedule; nothing is
known of DIN and DOUT, whose bytes are the free values of a new reset event. 70_reset_and_hazards.md R230. The count of
reset events and the host's list and last reply, which stay, are the model's own (logs 2 and 11). -/
def Obligations.ResetClearsTheCore : Prop :=
  ∀ (s : State) (rest : List HostTxn), s.pending = .reset :: rest →
    ∃ t, step s = .next t ∧ t.statusWord = 0 ∧ t.keylen = 0 ∧ t.ivlen = 0 ∧ t.dlen = 0 ∧ t.olen = 0 ∧
      (∀ i : Fin 32, t.keybuf[i] = 0) ∧ t.ivbuf = zeroBlock ∧ (∀ i : Fin 15, t.rk[i] = zeroBlock) ∧
      t.chain = zeroBlock ∧ t.din = [] ∧ t.dout = [] ∧ t.resets = s.resets + 1 ∧ t.pending = rest ∧
      t.reply = s.reply ∧ (∀ i, t.dinByte i = Config.dinResetByte (s.resets + 1) i) ∧
      ∀ i, t.doutByte i = Config.doutResetByte (s.resets + 1) i

/-- The state after reset: every register 0, no key schedule, and what the first commands do there: EXPAND raises
InvalidKeySize, ENCB NoKeySchedule, UNPAD InvalidPadding, the word 0 IllegalCommand, and PAD succeeds with 15 zero bytes
then 0x10. 10_state.md section 10, 70_reset_and_hazards.md section 2 (R233, which the spec marks as derived). -/
def Obligations.ResetStateAndItsFirstCommands : Prop :=
  (State.reset.statusWord = 0 ∧ State.reset.keylen = 0 ∧ State.reset.ivlen = 0 ∧ State.reset.dlen = 0 ∧
    State.reset.olen = 0 ∧ State.reset.keybuf = Vector.replicate 32 0 ∧ State.reset.ivbuf = zeroBlock ∧
    State.reset.rk = Vector.replicate 15 zeroBlock ∧ State.reset.chain = zeroBlock) ∧
  runCommand 0x00000001 State.reset = .next { State.reset with err := 1 } ∧
  runCommand 0x00000002 State.reset = .next { State.reset with err := 6 } ∧
  runCommand 0x00000007 State.reset = .next { State.reset with err := 4 } ∧
  runCommand 0x00000000 State.reset = .next { State.reset with err := 5 } ∧
  ∃ t, runCommand 0x00000006 State.reset = .next t ∧ t.err = 0 ∧ t.olen = 16 ∧
    t.output = List.replicate 15 0 ++ [0x10]

/-- The invariant of R29 holds after reset. 10_state.md section 9 (which the spec marks as derived). -/
def Obligations.InvariantHoldsAtReset : Prop := State.reset.Inv

/-- Every step keeps the invariant of R29, from every state that has it: no schedule means RK zero and NR 0; a schedule is
the whole expansion of one key, zeros above; an error leaves no output; the output fits DOUT; CHAIN is zero between
commands; ERR is a known code; DIN and DOUT keep their canonical form. 10_state.md section 9 (which the spec marks as
derived), and log 10 for the canonical form. -/
def Obligations.StepKeepsTheInvariant : Prop := ∀ s t : State, s.Inv → step s = .next t → t.Inv

/-- A message cut into pieces gives the pieces of the result when the host carries the chain: in CBC and CFB the next IV is
the last ciphertext block, in CTR the next counter is advanced by the blocks done. 70_reset_and_hazards.md section 3
(R238, which the spec marks as derived). -/
def Obligations.MessagesMayBeCutIntoPieces : Prop :=
  ∀ (s s1 s2 t t1 t2 : State) (i : Instr),
    (i = .encCbc true true ∨ i = .encCfb true true ∨ i = .encCtr true true) →
    sameSchedule s1 s → sameSchedule s2 s → s1.ivbuf = s.ivbuf →
    s.input = s1.input ++ s2.input → s1.dlen.toNat % 16 = 0 → 0 < s1.dlen.toNat →
    exec i s = .next t → t.err = 0 → exec i s1 = .next t1 → t1.err = 0 → exec i s2 = .next t2 → t2.err = 0 →
    (if i = .encCtr true true
     then counterValue s2.ivbuf = (counterValue s.ivbuf + s1.dlen.toNat / 16) % 2 ^ 128
     else s2.ivbuf = blockOf (blockAt t1.output (s1.dlen.toNat / 16 - 1))) →
    t.output = t1.output ++ t2.output

/-- The other direction of `Obligations.DecryptionUndoesEncryption`: if DECB, a DEC command or UNPAD succeeds and its result
is the input of the command it undoes, with the same options, under the same schedule, IVBUF and IVLEN, then that command
succeeds and gives the first command's input back. From E(D(b)) = b (42_block_transform.md section 3), pad(unpad(y)) = y
(44_padding.md section 1) and the chaining of each mode (43_modes.md sections 2 to 6). -/
def Obligations.EncryptionUndoesDecryption : Prop :=
  ∀ (i j : Instr) (s t u : State), inverseCommand i = some j → exec j s = .next t → t.err = 0 →
    sameSchedule u t → u.ivbuf = t.ivbuf → u.ivlen = t.ivlen →
    u.dlen = t.olen → u.dlen.toNat ≤ Config.dcap → u.input = t.output →
    ∃ v, exec i u = .next v ∧ v.err = 0 ∧ v.olen = s.dlen ∧ v.output = s.input
end

