-- ==== Sys2Proof/Laws/Gf256.lean ====
section
/-! SUPPORT. Facts about the field arithmetic and the tables. -/

namespace Sys2Proof.Machine

/-! The multiplication is linear in its second argument. -/

theorem gmulLoop_acc (n : Nat) : ∀ a b p : Byte, gmulLoop n a b p = p ^^^ gmulLoop n a b 0x00#8 := by
  induction n with
  | zero => intro a b p; simp [gmulLoop]
  | succ n ih =>
    intro a b p
    simp only [gmulLoop]
    rw [ih _ _ (if b.getLsbD 0 then p ^^^ a else p), ih _ _ (if b.getLsbD 0 then 0x00#8 ^^^ a else 0x00#8)]
    split <;> simp [BitVec.xor_assoc]

theorem gmulLoop_xor (n : Nat) :
    ∀ a b c : Byte, gmulLoop n a (b ^^^ c) 0x00#8 = gmulLoop n a b 0x00#8 ^^^ gmulLoop n a c 0x00#8 := by
  induction n with
  | zero => intro a b c; simp [gmulLoop]
  | succ n ih =>
    intro a b c
    simp only [gmulLoop]
    rw [gmulLoop_acc n _ _ (if (b ^^^ c).getLsbD 0 then 0x00#8 ^^^ a else 0x00#8),
      gmulLoop_acc n _ _ (if b.getLsbD 0 then 0x00#8 ^^^ a else 0x00#8),
      gmulLoop_acc n _ _ (if c.getLsbD 0 then 0x00#8 ^^^ a else 0x00#8), BitVec.ushiftRight_xor_distrib, ih]
    simp only [BitVec.getLsbD_xor, BitVec.zero_xor]
    cases b.getLsbD 0 <;> cases c.getLsbD 0 <;> simp
    · ac_rfl
    · ac_rfl
    · rw [show a ^^^ gmulLoop n (xtime a) (b >>> 1) 0#8 ^^^ (a ^^^ gmulLoop n (xtime a) (c >>> 1) 0#8) =
        (a ^^^ a) ^^^ (gmulLoop n (xtime a) (b >>> 1) 0#8 ^^^ gmulLoop n (xtime a) (c >>> 1) 0#8) by ac_rfl]
      simp

theorem gmul_xor_right (a b c : Byte) : gmul a (b ^^^ c) = gmul a b ^^^ gmul a c := gmulLoop_xor 8 a b c

theorem gmul_zero_right (a : Byte) : gmul a 0x00#8 = 0x00#8 := by
  have h : ∀ n a, gmulLoop n a 0x00#8 0x00#8 = 0x00#8 := by
    intro n
    induction n with
    | zero => intro a; rfl
    | succ n ih => intro a; simp [gmulLoop, ih]
  exact h 8 a

/-- A byte is the sum of its bits. -/
theorem byte_eq_sum_of_bits (a : Byte) :
    a = (List.range 8).foldl (fun p k => p ^^^ (if a.getLsbD k then 1#8 <<< k else 0#8)) 0#8 := by
  revert a
  decide +kernel

/-- Two functions on bytes that respect addition are equal if they agree on the eight powers of x. -/
theorem linear_ext {f g : Byte → Byte} (hf : ∀ a b, f (a ^^^ b) = f a ^^^ f b)
    (hg : ∀ a b, g (a ^^^ b) = g a ^^^ g b) (h : ∀ k < 8, f (1#8 <<< k) = g (1#8 <<< k)) (a : Byte) : f a = g a := by
  have zero : ∀ {u : Byte → Byte}, (∀ a b, u (a ^^^ b) = u a ^^^ u b) → u 0#8 = 0#8 := by
    intro u hu
    have := hu 0#8 0#8
    simpa using this
  have fold : ∀ (l : List Nat), (∀ k ∈ l, k < 8) → ∀ p, f p = g p →
      f (l.foldl (fun p k => p ^^^ (if a.getLsbD k then 1#8 <<< k else 0#8)) p) =
        g (l.foldl (fun p k => p ^^^ (if a.getLsbD k then 1#8 <<< k else 0#8)) p) := by
    intro l
    induction l with
    | nil => intro _ p hp; exact hp
    | cons k l ih =>
      intro hl p hp
      refine ih (fun j hj => hl j (List.mem_cons_of_mem _ hj)) _ ?_
      rw [hf, hg, hp]
      split
      · rw [h k (hl k List.mem_cons_self)]
      · rw [zero hf, zero hg]
  rw [byte_eq_sum_of_bits a]
  exact fold _ (by simp) _ (by rw [zero hf, zero hg])

theorem xorBlock_get (a b : Block) (i : Nat) (h : i < 16) : (xorBlock a b)[i] = a[i] ^^^ b[i] := by
  simp [xorBlock]

theorem blockOf_get (l : List Byte) (i : Nat) (h : i < 16) : (blockOf l)[i] = l.getD i 0x00#8 := by
  simp [blockOf]

theorem xorBlock_comm (a b : Block) : xorBlock a b = xorBlock b a := by
  refine Vector.ext fun i h => ?_; simp [xorBlock_get, BitVec.xor_comm]

/-- Adding the same block twice changes nothing. -/
@[simp] theorem xorBlock_xorBlock_self (a k : Block) : xorBlock (xorBlock a k) k = a := by
  refine Vector.ext fun i h => ?_; simp [xorBlock_get]

@[simp] theorem blockOf_toList (b : Block) : blockOf b.toList = b := by
  refine Vector.ext fun i h => ?_; simp [blockOf]

theorem toList_blockOf {l : List Byte} (h : l.length = 16) : (blockOf l).toList = l := by
  apply List.ext_getElem
  · simp [h]
  · intro i h1 h2
    simp [blockOf, h2]

end Sys2Proof.Machine
end

