-- ==== Sys2Proof/Laws/Block.lean ====
section
/-! SUPPORT. Facts about the steps of the block transform: each step on one byte of the state, and the product of the two
MixColumns matrices. -/

namespace Sys2Proof.Machine

theorem subBytes_get (st : Block) (i : Nat) (h : i < 16) : (subBytes st)[i] = sbox st[i] := by simp [subBytes]

theorem invSubBytes_get (st : Block) (i : Nat) (h : i < 16) : (invSubBytes st)[i] = invSbox st[i] := by
  simp [invSubBytes]

theorem shiftRows_get (st : Block) (i : Nat) (h : i < 16) :
    (shiftRows st)[i] = elementAt st (i % 4) (i / 4 + i % 4) := by simp [shiftRows]

theorem invShiftRows_get (st : Block) (i : Nat) (h : i < 16) :
    (invShiftRows st)[i] = elementAt st (i % 4) (i / 4 + 4 - i % 4) := by simp [invShiftRows]

theorem mixWith_get (m : Nat → Nat → Byte) (st : Block) (i : Nat) (h : i < 16) :
    (mixWith m st)[i] =
      gmul (m (i % 4) 0) (elementAt st 0 (i / 4)) ^^^ gmul (m (i % 4) 1) (elementAt st 1 (i / 4)) ^^^
        gmul (m (i % 4) 2) (elementAt st 2 (i / 4)) ^^^ gmul (m (i % 4) 3) (elementAt st 3 (i / 4)) := by
  simp [mixWith]

/-- The element in row r and column c is byte r + 4*c. -/
theorem elementAt_eq (st : Block) (r c : Nat) (hr : r < 4) (hc : c < 4) : elementAt st r c = st[r + 4 * c] := by
  simp [elementAt, Nat.mod_eq_of_lt, hr, hc]

/-- An entry of the product of two matrices, applied to one byte. -/
def productEntry (m n : Nat → Nat → Byte) (r l : Nat) (a : Byte) : Byte :=
  gmul (m r 0) (gmul (n 0 l) a) ^^^ gmul (m r 1) (gmul (n 1 l) a) ^^^
    gmul (m r 2) (gmul (n 2 l) a) ^^^ gmul (m r 3) (gmul (n 3 l) a)

theorem productEntry_xor (m n : Nat → Nat → Byte) (r l : Nat) (a b : Byte) :
    productEntry m n r l (a ^^^ b) = productEntry m n r l a ^^^ productEntry m n r l b := by
  simp only [productEntry, gmul_xor_right]
  ac_rfl

/-- IM times M is the identity matrix, entry by entry (R127). -/
theorem invMix_mix_entry (r l : Nat) (hr : r < 4) (hl : l < 4) (a : Byte) :
    productEntry (matrixEntry invMixMatrix) (matrixEntry mixMatrix) r l a = if r = l then a else 0x00#8 := by
  refine linear_ext (g := fun a => if r = l then a else 0x00#8) (productEntry_xor _ _ r l) ?_ ?_ a
  · intro a b; split <;> simp
  · have h : ∀ r < 4, ∀ l < 4, ∀ k < 8,
        productEntry (matrixEntry invMixMatrix) (matrixEntry mixMatrix) r l (1#8 <<< k) =
          if r = l then 1#8 <<< k else 0x00#8 := by decide +kernel
    exact h r hr l hl

/-- M times IM is the identity matrix, entry by entry. -/
theorem mix_invMix_entry (r l : Nat) (hr : r < 4) (hl : l < 4) (a : Byte) :
    productEntry (matrixEntry mixMatrix) (matrixEntry invMixMatrix) r l a = if r = l then a else 0x00#8 := by
  refine linear_ext (g := fun a => if r = l then a else 0x00#8) (productEntry_xor _ _ r l) ?_ ?_ a
  · intro a b; split <;> simp
  · have h : ∀ r < 4, ∀ l < 4, ∀ k < 8,
        productEntry (matrixEntry mixMatrix) (matrixEntry invMixMatrix) r l (1#8 <<< k) =
          if r = l then 1#8 <<< k else 0x00#8 := by decide +kernel
    exact h r hr l hl

/-- Applying two matrices in turn applies their product. -/
theorem mixWith_mixWith_get (m n : Nat → Nat → Byte) (st : Block) (i : Nat) (h : i < 16) :
    (mixWith m (mixWith n st))[i] =
      productEntry m n (i % 4) 0 (elementAt st 0 (i / 4)) ^^^ productEntry m n (i % 4) 1 (elementAt st 1 (i / 4)) ^^^
        productEntry m n (i % 4) 2 (elementAt st 2 (i / 4)) ^^^ productEntry m n (i % 4) 3 (elementAt st 3 (i / 4)) := by
  have e : ∀ k < 4, elementAt (mixWith n st) k (i / 4) =
      gmul (n k 0) (elementAt st 0 (i / 4)) ^^^ gmul (n k 1) (elementAt st 1 (i / 4)) ^^^
        gmul (n k 2) (elementAt st 2 (i / 4)) ^^^ gmul (n k 3) (elementAt st 3 (i / 4)) := by
    intro k hk
    rw [elementAt_eq _ _ _ hk (by omega), mixWith_get _ _ _ (by omega)]
    have h1 : (k + 4 * (i / 4)) % 4 = k := by omega
    have h2 : (k + 4 * (i / 4)) / 4 = i / 4 := by omega
    rw [h1, h2]
  rw [mixWith_get _ _ _ h, e 0 (by omega), e 1 (by omega), e 2 (by omega), e 3 (by omega)]
  simp only [productEntry, gmul_xor_right]
  ac_rfl

/-- A list of steps undone one by one, from the last to the first. -/
theorem foldl_reverse_undoes {α β : Type} {f g : α → β → α} (h : ∀ a b, g (f a b) b = a) :
    ∀ (l : List β) (a : α), l.reverse.foldl g (l.foldl f a) = a := by
  intro l
  induction l with
  | nil => intro a; rfl
  | cons b l ih => intro a; simp only [List.foldl_cons, List.reverse_cons, List.foldl_append, List.foldl_nil, ih, h]

end Sys2Proof.Machine
end

