-- ==== Sys2Proof/Laws/State.lean ====
section
/-! SUPPORT. One lemma per field of the state for each named update of it, each true by definition. -/

namespace Sys2Proof.Machine

variable (s : State)

/-! `State.raise` -/

@[simp] theorem State.raise_err (e : ErrorKind) : (s.raise e).err = e.code := rfl
@[simp] theorem State.raise_ksv (e : ErrorKind) : (s.raise e).ksv = s.ksv := rfl
@[simp] theorem State.raise_nr (e : ErrorKind) : (s.raise e).nr = s.nr := rfl
@[simp] theorem State.raise_keylen (e : ErrorKind) : (s.raise e).keylen = s.keylen := rfl
@[simp] theorem State.raise_ivlen (e : ErrorKind) : (s.raise e).ivlen = s.ivlen := rfl
@[simp] theorem State.raise_dlen (e : ErrorKind) : (s.raise e).dlen = s.dlen := rfl
@[simp] theorem State.raise_olen (e : ErrorKind) : (s.raise e).olen = 0 := rfl
@[simp] theorem State.raise_keybuf (e : ErrorKind) : (s.raise e).keybuf = s.keybuf := rfl
@[simp] theorem State.raise_ivbuf (e : ErrorKind) : (s.raise e).ivbuf = s.ivbuf := rfl
@[simp] theorem State.raise_din (e : ErrorKind) : (s.raise e).din = s.din := rfl
@[simp] theorem State.raise_dout (e : ErrorKind) : (s.raise e).dout = s.dout := rfl
@[simp] theorem State.raise_rk (e : ErrorKind) : (s.raise e).rk = s.rk := rfl
@[simp] theorem State.raise_chain (e : ErrorKind) : (s.raise e).chain = zeroBlock := rfl
@[simp] theorem State.raise_resets (e : ErrorKind) : (s.raise e).resets = s.resets := rfl
@[simp] theorem State.raise_pending (e : ErrorKind) : (s.raise e).pending = s.pending := rfl
@[simp] theorem State.raise_reply (e : ErrorKind) : (s.raise e).reply = s.reply := rfl

/-! `State.complete` -/

@[simp] theorem State.complete_err (out : List Byte) : (s.complete out).err = okCode := rfl
@[simp] theorem State.complete_ksv (out : List Byte) : (s.complete out).ksv = s.ksv := rfl
@[simp] theorem State.complete_nr (out : List Byte) : (s.complete out).nr = s.nr := rfl
@[simp] theorem State.complete_keylen (out : List Byte) : (s.complete out).keylen = s.keylen := rfl
@[simp] theorem State.complete_ivlen (out : List Byte) : (s.complete out).ivlen = s.ivlen := rfl
@[simp] theorem State.complete_dlen (out : List Byte) : (s.complete out).dlen = s.dlen := rfl
@[simp] theorem State.complete_olen (out : List Byte) : (s.complete out).olen = BitVec.ofNat 32 out.length := rfl
@[simp] theorem State.complete_keybuf (out : List Byte) : (s.complete out).keybuf = s.keybuf := rfl
@[simp] theorem State.complete_ivbuf (out : List Byte) : (s.complete out).ivbuf = s.ivbuf := rfl
@[simp] theorem State.complete_din (out : List Byte) : (s.complete out).din = s.din := rfl
@[simp] theorem State.complete_dout (out : List Byte) : (s.complete out).dout = s.dout.write 0 out := rfl
@[simp] theorem State.complete_rk (out : List Byte) : (s.complete out).rk = s.rk := rfl
@[simp] theorem State.complete_chain (out : List Byte) : (s.complete out).chain = s.chain := rfl
@[simp] theorem State.complete_resets (out : List Byte) : (s.complete out).resets = s.resets := rfl
@[simp] theorem State.complete_pending (out : List Byte) : (s.complete out).pending = s.pending := rfl
@[simp] theorem State.complete_reply (out : List Byte) : (s.complete out).reply = s.reply := rfl

/-! `State.clearChain` -/

@[simp] theorem State.clearChain_err : (s.clearChain).err = s.err := rfl
@[simp] theorem State.clearChain_ksv : (s.clearChain).ksv = s.ksv := rfl
@[simp] theorem State.clearChain_nr : (s.clearChain).nr = s.nr := rfl
@[simp] theorem State.clearChain_keylen : (s.clearChain).keylen = s.keylen := rfl
@[simp] theorem State.clearChain_ivlen : (s.clearChain).ivlen = s.ivlen := rfl
@[simp] theorem State.clearChain_dlen : (s.clearChain).dlen = s.dlen := rfl
@[simp] theorem State.clearChain_olen : (s.clearChain).olen = s.olen := rfl
@[simp] theorem State.clearChain_keybuf : (s.clearChain).keybuf = s.keybuf := rfl
@[simp] theorem State.clearChain_ivbuf : (s.clearChain).ivbuf = s.ivbuf := rfl
@[simp] theorem State.clearChain_din : (s.clearChain).din = s.din := rfl
@[simp] theorem State.clearChain_dout : (s.clearChain).dout = s.dout := rfl
@[simp] theorem State.clearChain_rk : (s.clearChain).rk = s.rk := rfl
@[simp] theorem State.clearChain_chain : (s.clearChain).chain = zeroBlock := rfl
@[simp] theorem State.clearChain_resets : (s.clearChain).resets = s.resets := rfl
@[simp] theorem State.clearChain_pending : (s.clearChain).pending = s.pending := rfl
@[simp] theorem State.clearChain_reply : (s.clearChain).reply = s.reply := rfl

/-! `State.storeSchedule` -/

@[simp] theorem State.storeSchedule_err (nr : Nat) (rks : List Block) : (s.storeSchedule nr rks).err = okCode := rfl
@[simp] theorem State.storeSchedule_ksv (nr : Nat) (rks : List Block) : (s.storeSchedule nr rks).ksv = true := rfl
@[simp] theorem State.storeSchedule_nr (nr : Nat) (rks : List Block) : (s.storeSchedule nr rks).nr = BitVec.ofNat 4 nr := rfl
@[simp] theorem State.storeSchedule_keylen (nr : Nat) (rks : List Block) : (s.storeSchedule nr rks).keylen = s.keylen := rfl
@[simp] theorem State.storeSchedule_ivlen (nr : Nat) (rks : List Block) : (s.storeSchedule nr rks).ivlen = s.ivlen := rfl
@[simp] theorem State.storeSchedule_dlen (nr : Nat) (rks : List Block) : (s.storeSchedule nr rks).dlen = s.dlen := rfl
@[simp] theorem State.storeSchedule_olen (nr : Nat) (rks : List Block) : (s.storeSchedule nr rks).olen = 0 := rfl
@[simp] theorem State.storeSchedule_keybuf (nr : Nat) (rks : List Block) : (s.storeSchedule nr rks).keybuf = s.keybuf := rfl
@[simp] theorem State.storeSchedule_ivbuf (nr : Nat) (rks : List Block) : (s.storeSchedule nr rks).ivbuf = s.ivbuf := rfl
@[simp] theorem State.storeSchedule_din (nr : Nat) (rks : List Block) : (s.storeSchedule nr rks).din = s.din := rfl
@[simp] theorem State.storeSchedule_dout (nr : Nat) (rks : List Block) : (s.storeSchedule nr rks).dout = s.dout := rfl
@[simp] theorem State.storeSchedule_rk (nr : Nat) (rks : List Block) : (s.storeSchedule nr rks).rk = Vector.ofFn fun i => if i.val ≤ nr then rks.getD i.val zeroBlock else zeroBlock := rfl
@[simp] theorem State.storeSchedule_chain (nr : Nat) (rks : List Block) : (s.storeSchedule nr rks).chain = s.chain := rfl
@[simp] theorem State.storeSchedule_resets (nr : Nat) (rks : List Block) : (s.storeSchedule nr rks).resets = s.resets := rfl
@[simp] theorem State.storeSchedule_pending (nr : Nat) (rks : List Block) : (s.storeSchedule nr rks).pending = s.pending := rfl
@[simp] theorem State.storeSchedule_reply (nr : Nat) (rks : List Block) : (s.storeSchedule nr rks).reply = s.reply := rfl

/-! `State.resetEvent` -/

@[simp] theorem State.resetEvent_err : (s.resetEvent).err = State.reset.err := rfl
@[simp] theorem State.resetEvent_ksv : (s.resetEvent).ksv = State.reset.ksv := rfl
@[simp] theorem State.resetEvent_nr : (s.resetEvent).nr = State.reset.nr := rfl
@[simp] theorem State.resetEvent_keylen : (s.resetEvent).keylen = State.reset.keylen := rfl
@[simp] theorem State.resetEvent_ivlen : (s.resetEvent).ivlen = State.reset.ivlen := rfl
@[simp] theorem State.resetEvent_dlen : (s.resetEvent).dlen = State.reset.dlen := rfl
@[simp] theorem State.resetEvent_olen : (s.resetEvent).olen = State.reset.olen := rfl
@[simp] theorem State.resetEvent_keybuf : (s.resetEvent).keybuf = State.reset.keybuf := rfl
@[simp] theorem State.resetEvent_ivbuf : (s.resetEvent).ivbuf = State.reset.ivbuf := rfl
@[simp] theorem State.resetEvent_din : (s.resetEvent).din = State.reset.din := rfl
@[simp] theorem State.resetEvent_dout : (s.resetEvent).dout = State.reset.dout := rfl
@[simp] theorem State.resetEvent_rk : (s.resetEvent).rk = State.reset.rk := rfl
@[simp] theorem State.resetEvent_chain : (s.resetEvent).chain = State.reset.chain := rfl
@[simp] theorem State.resetEvent_resets : (s.resetEvent).resets = s.resets + 1 := rfl
@[simp] theorem State.resetEvent_pending : (s.resetEvent).pending = s.pending := rfl
@[simp] theorem State.resetEvent_reply : (s.resetEvent).reply = s.reply := rfl

/-! `State.withCommand` -/

@[simp] theorem State.withCommand_err (c : Word32) : (s.withCommand c).err = s.err := rfl
@[simp] theorem State.withCommand_ksv (c : Word32) : (s.withCommand c).ksv = s.ksv := rfl
@[simp] theorem State.withCommand_nr (c : Word32) : (s.withCommand c).nr = s.nr := rfl
@[simp] theorem State.withCommand_keylen (c : Word32) : (s.withCommand c).keylen = s.keylen := rfl
@[simp] theorem State.withCommand_ivlen (c : Word32) : (s.withCommand c).ivlen = s.ivlen := rfl
@[simp] theorem State.withCommand_dlen (c : Word32) : (s.withCommand c).dlen = s.dlen := rfl
@[simp] theorem State.withCommand_olen (c : Word32) : (s.withCommand c).olen = s.olen := rfl
@[simp] theorem State.withCommand_keybuf (c : Word32) : (s.withCommand c).keybuf = s.keybuf := rfl
@[simp] theorem State.withCommand_ivbuf (c : Word32) : (s.withCommand c).ivbuf = s.ivbuf := rfl
@[simp] theorem State.withCommand_din (c : Word32) : (s.withCommand c).din = s.din := rfl
@[simp] theorem State.withCommand_dout (c : Word32) : (s.withCommand c).dout = s.dout := rfl
@[simp] theorem State.withCommand_rk (c : Word32) : (s.withCommand c).rk = s.rk := rfl
@[simp] theorem State.withCommand_chain (c : Word32) : (s.withCommand c).chain = s.chain := rfl
@[simp] theorem State.withCommand_resets (c : Word32) : (s.withCommand c).resets = s.resets := rfl
@[simp] theorem State.withCommand_pending (c : Word32) : (s.withCommand c).pending = .write32 0x00 c :: s.pending := rfl
@[simp] theorem State.withCommand_reply (c : Word32) : (s.withCommand c).reply = s.reply := rfl

end Sys2Proof.Machine
end

