-- ==== Sys2Proof/Laws/Memory.lean ====
section
/-! SUPPORT. Reading after writing a large buffer, the canonical form that every write keeps, and the input and output of
a command byte by byte. -/

namespace Sys2Proof.Machine

theorem cellsFrom_key_bounds (bs : List Byte) : ∀ i, ∀ c ∈ cellsFrom i bs, i ≤ c.1 ∧ c.1 < i + bs.length := by
  induction bs with
  | nil => intro i c hc; simp [cellsFrom] at hc
  | cons b bs ih =>
    intro i c hc
    simp only [cellsFrom, List.mem_cons] at hc
    rcases hc with rfl | hc
    · simp
    · have := ih (i + 1) c hc
      simp only [List.length_cons]
      omega

theorem cellsFrom_wf (bs : List Byte) : ∀ i, (cellsFrom i bs).Pairwise (fun a b => a.1 < b.1) := by
  induction bs with
  | nil => intro i; exact List.Pairwise.nil
  | cons b bs ih =>
    intro i
    refine List.Pairwise.cons (fun c hc => ?_) (ih _)
    have := (cellsFrom_key_bounds bs (i + 1) c hc).1
    simp only
    omega

theorem cellsFrom_lookup (bs : List Byte) : ∀ i k,
    List.lookup k (cellsFrom i bs) = if i ≤ k then bs[k - i]? else none := by
  induction bs with
  | nil => intro i k; simp [cellsFrom]
  | cons b bs ih =>
    intro i k
    simp only [cellsFrom, List.lookup_cons, ih]
    by_cases h : k = i
    · subst h; simp
    · rw [beq_false_of_ne h]
      by_cases h1 : i ≤ k
      · have h2 : i + 1 ≤ k := by omega
        obtain ⟨j, rfl⟩ := Nat.exists_eq_add_of_le h2
        simp only [h1, h2, if_true]
        rw [show i + 1 + j - i = j + 1 by omega, show i + 1 + j - (i + 1) = j by omega, List.getElem?_cons_succ]
      · have h2 : ¬i + 1 ≤ k := by omega
        simp [h1, h2]

theorem lookup_filter_key (m : Memory) (p : Nat → Bool) (k : Nat) :
    List.lookup k (m.filter fun c => p c.1) = if p k then List.lookup k m else none := by
  induction m with
  | nil => simp
  | cons c m ih =>
    obtain ⟨j, b⟩ := c
    by_cases hk : k = j
    · subst hk
      cases hp : p k <;> simp [hp, ih]
    · cases hp : p j <;> simp [hp, ih, List.lookup_cons, beq_false_of_ne hk]

/-- Reading after a write: the bytes written, and every other byte as before. -/
theorem Memory.cellAt_write (m : Memory) (i : Nat) (bs : List Byte) (k : Nat) :
    (m.write i bs).cellAt k = if i ≤ k ∧ k < i + bs.length then bs[k - i]? else m.cellAt k := by
  unfold Memory.write Memory.cellAt
  rw [List.lookup_append, List.lookup_append, lookup_filter_key m (fun j => decide (j < i)),
    lookup_filter_key m (fun j => decide (i + bs.length ≤ j)), cellsFrom_lookup]
  by_cases h1 : i ≤ k
  · by_cases h2 : k < i + bs.length
    · have h3 : k - i < bs.length := by omega
      simp [h1, h2, Nat.not_lt.mpr h1, List.getElem?_eq_getElem h3]
    · have h3 : bs.length ≤ k - i := by omega
      simp [h1, h2, Nat.not_lt.mpr h1, List.getElem?_eq_none h3, Nat.not_lt.mp h2]
  · have h3 : ¬i + bs.length ≤ k := by omega
    cases h : List.lookup k m <;> simp [h1, Nat.not_le.mp h1, h3]

/-- Every write keeps the canonical form. -/
theorem Memory.write_wf {m : Memory} (h : m.wf) (i : Nat) (bs : List Byte) : (m.write i bs).wf := by
  unfold Memory.write Memory.wf
  rw [List.pairwise_append, List.pairwise_append]
  refine ⟨⟨h.filter _, cellsFrom_wf bs i, fun a ha b hb => ?_⟩, h.filter _, fun a ha b hb => ?_⟩
  · have hb := (cellsFrom_key_bounds bs i b hb).1
    have ha := (List.mem_filter.mp ha).2
    simp only [decide_eq_true_eq] at ha
    omega
  · have hb := (List.mem_filter.mp hb).2
    simp only [decide_eq_true_eq] at hb
    rcases List.mem_append.mp ha with ha | ha
    · have ha := (List.mem_filter.mp ha).2
      simp only [decide_eq_true_eq] at ha
      omega
    · have ha := (cellsFrom_key_bounds bs i a ha).2
      omega

/-- A write inside a buffer keeps every listed index inside it. -/
theorem Memory.write_within {m : Memory} {n : Nat} (h : m.within n) {i : Nat} {bs : List Byte}
    (hi : i + bs.length ≤ n) : (m.write i bs).within n := by
  intro c hc
  rcases List.mem_append.mp hc with hc | hc
  · rcases List.mem_append.mp hc with hc | hc
    · exact h c (List.mem_filter.mp hc).1
    · have := (cellsFrom_key_bounds bs i c hc).2
      omega
  · exact h c (List.mem_filter.mp hc).1

theorem Memory.nil_wf : Memory.wf [] := List.Pairwise.nil

theorem Memory.nil_within (n : Nat) : Memory.within [] n := by intro c hc; cases hc

/-- DIN and DOUT are in canonical form after reset. -/
theorem reset_memory_wf : State.reset.din.wf ∧ State.reset.dout.wf := ⟨Memory.nil_wf, Memory.nil_wf⟩

/-- Keeping the cells of a written buffer that satisfy a condition on the index. -/
theorem Memory.filter_write (m : Memory) (i : Nat) (bs : List Byte) (p : Nat → Bool)
    (h : ∀ k, i ≤ k → k < i + bs.length → p k = false) :
    (m.write i bs).filter (fun c => p c.1) =
      m.filter (fun c => p c.1 && decide (c.1 < i)) ++ m.filter (fun c => p c.1 && decide (i + bs.length ≤ c.1)) := by
  have none : (cellsFrom i bs).filter (fun c => p c.1) = [] := by
    rw [List.filter_eq_nil_iff]
    intro c hc
    have := cellsFrom_key_bounds bs i c hc
    simp [h c.1 this.1 this.2]
  unfold Memory.write
  rw [List.filter_append, List.filter_append, List.filter_filter, List.filter_filter, none, List.append_nil]

/-- A second write of as many bytes at the same place replaces the first. -/
theorem Memory.write_write (m : Memory) (i : Nat) {as bs : List Byte} (h : as.length = bs.length) :
    (m.write i as).write i bs = m.write i bs := by
  have low := m.filter_write i as (fun k => decide (k < i)) (by intro k hk _; simpa using hk)
  have high := m.filter_write i as (fun k => decide (i + bs.length ≤ k)) (by intro k _ hk; rw [← h]; simpa using hk)
  have e1 : m.filter (fun c => decide (c.1 < i) && decide (i + as.length ≤ c.1)) = [] := by
    rw [List.filter_eq_nil_iff]; intro c _; simp; omega
  have e2 : m.filter (fun c => decide (i + bs.length ≤ c.1) && decide (c.1 < i)) = [] := by
    rw [List.filter_eq_nil_iff]; intro c _; simp; omega
  rw [e1, List.append_nil] at low
  rw [e2, List.nil_append, h] at high
  simp only [Bool.and_self] at low high
  rw [Memory.write.eq_1 (m.write i as), low, high, Memory.write]

theorem Memory.cellAt_cons (c : Host.Cell) (m : Memory) (k : Nat) :
    Memory.cellAt (c :: m) k = if k = c.1 then some c.2 else m.cellAt k := by
  obtain ⟨j, b⟩ := c
  by_cases h : k = j
  · simp [Memory.cellAt, h]
  · simp [Memory.cellAt, List.lookup_cons, beq_false_of_ne h, h]

/-- Below the first index of a buffer nothing is listed. -/
theorem Memory.cellAt_eq_none {m : Memory} {k : Nat} (h : ∀ c ∈ m, k < c.1) : m.cellAt k = none := by
  induction m with
  | nil => rfl
  | cons c m ih =>
    rw [Memory.cellAt_cons, if_neg (Nat.ne_of_lt (h c List.mem_cons_self))]
    exact ih fun d hd => h d (List.mem_cons_of_mem _ hd)

/-- Two buffers in canonical form that list the same byte at every index are the same data. -/
theorem Memory.ext_of_cellAt {m n : Memory} (hm : m.wf) (hn : n.wf) (h : ∀ k, m.cellAt k = n.cellAt k) : m = n := by
  induction m generalizing n with
  | nil =>
    cases n with
    | nil => rfl
    | cons d n =>
      have := h d.1
      rw [Memory.cellAt_cons, if_pos rfl] at this
      cases this
  | cons c m ih =>
    cases n with
    | nil =>
      have := h c.1
      rw [Memory.cellAt_cons, if_pos rfl] at this
      cases this
    | cons d n =>
      have hc := List.pairwise_cons.mp hm
      have hd := List.pairwise_cons.mp hn
      have key : c.1 = d.1 := by
        by_contra hne
        rcases Nat.lt_or_gt_of_ne hne with hlt | hlt
        · have := h c.1
          rw [Memory.cellAt_cons, if_pos rfl, Memory.cellAt_cons, if_neg hne,
            Memory.cellAt_eq_none fun e he => Nat.lt_trans hlt (hd.1 e he)] at this
          cases this
        · have := h d.1
          rw [Memory.cellAt_cons, if_neg (Ne.symm hne), Memory.cellAt_cons, if_pos rfl,
            Memory.cellAt_eq_none fun e he => Nat.lt_trans hlt (hc.1 e he)] at this
          cases this
      have value : c.2 = d.2 := by
        have := h c.1
        rw [Memory.cellAt_cons, if_pos rfl, Memory.cellAt_cons, if_pos key] at this
        exact Option.some.inj this
      have rest : m = n := by
        refine ih hc.2 hd.2 fun k => ?_
        by_cases hk : k = c.1
        · subst hk
          rw [Memory.cellAt_eq_none hc.1, Memory.cellAt_eq_none fun e he => key ▸ hd.1 e he]
        · have := h k
          rwa [Memory.cellAt_cons, if_neg hk, Memory.cellAt_cons, if_neg (key ▸ hk)] at this
      rw [Prod.ext key value, rest]

/-! The input and the output of a command. -/

@[simp] theorem State.input_length (s : State) : s.input.length = s.dlen.toNat := by simp [State.input]

@[simp] theorem State.output_length (s : State) : s.output.length = s.olen.toNat := by simp [State.output]

theorem State.input_getD (s : State) (i : Nat) (h : i < s.dlen.toNat) (b : Byte) : s.input.getD i b = s.dinByte i := by
  simp [State.input, h]

theorem State.output_getD (s : State) (i : Nat) (h : i < s.olen.toNat) (b : Byte) :
    s.output.getD i b = s.doutByte i := by
  simp [State.output, h]

/-- DOUT after a command that completes: its result, and every other byte as before. -/
theorem State.complete_doutByte (s : State) (out : List Byte) (k : Nat) :
    (s.complete out).doutByte k = if k < out.length then out.getD k 0x00#8 else s.doutByte k := by
  unfold State.doutByte
  rw [State.complete_dout, Memory.cellAt_write, State.complete_resets]
  by_cases h : k < out.length <;> simp [h]

@[simp] theorem State.complete_dinByte (s : State) (out : List Byte) (k : Nat) :
    (s.complete out).dinByte k = s.dinByte k := rfl

@[simp] theorem State.complete_input (s : State) (out : List Byte) : (s.complete out).input = s.input := rfl

@[simp] theorem State.clearChain_doutByte (s : State) (k : Nat) : s.clearChain.doutByte k = s.doutByte k := rfl

@[simp] theorem State.clearChain_output (s : State) : s.clearChain.output = s.output := rfl

/-- `DOUT[0..OLEN)` after a command that completes is its result. -/
theorem State.complete_output (s : State) (out : List Byte) (h : out.length < 2 ^ 32) :
    (s.complete out).output = out := by
  have hl : (s.complete out).output.length = out.length := by
    rw [State.output_length, State.complete_olen, BitVec.toNat_ofNat, Nat.mod_eq_of_lt h]
  refine List.ext_getElem hl fun i h1 h2 => ?_
  simp only [State.output, List.getElem_map, List.getElem_range, State.complete_doutByte, h2, if_true]
  simp [h2]

/-- The capacity of DOUT fits a 32-bit count (00_scope.md R5). -/
theorem Config.ocap_lt : Config.ocap < 2 ^ 32 := by
  unfold Config.ocap Config.dcap
  omega

/-- The bounds of DCAP (00_scope.md R5). -/
theorem Config.dcap_bounds : 64 ≤ Config.dcap ∧ Config.dcap ≤ 0x3FFFFF00 := by
  unfold Config.dcap
  omega

end Sys2Proof.Machine
end

