-- ==== Sys2Proof/Laws/Modes.lean ====
section
/-! SUPPORT. The block loop block by block: the length of its output, its i-th output block, and a message cut in two.
The inverse of each mode's turn. -/

namespace Sys2Proof.Machine

/-! Blocks of a sequence. -/

theorem blockAt_length (d : List Byte) (i : Nat) : (blockAt d i).length = min 16 (d.length - 16 * i) := by
  simp [blockAt]

theorem blockAt_full {d : List Byte} {i : Nat} (h : 16 * i + 16 ≤ d.length) : (blockAt d i).length = 16 := by
  rw [blockAt_length]; omega

theorem blockAt_getD (d : List Byte) (i j : Nat) (hj : j < 16) (b : Byte) :
    (blockAt d i).getD j b = d.getD (16 * i + j) b := by
  simp [blockAt, List.getD_eq_getElem?_getD, hj, List.getElem?_drop]

/-- Byte j of a sequence is byte j mod 16 of block j div 16. -/
theorem getD_eq_blockAt (d : List Byte) (j : Nat) (b : Byte) : d.getD j b = (blockAt d (j / 16)).getD (j % 16) b := by
  rw [blockAt_getD _ _ _ (Nat.mod_lt _ (by decide)), Nat.div_add_mod]

theorem blockAt_zero (d : List Byte) : blockAt d 0 = d.take 16 := by simp [blockAt]

theorem blockAt_drop (d : List Byte) (i : Nat) : blockAt (d.drop 16) i = blockAt d (i + 1) := by
  simp [blockAt, Nat.mul_add, Nat.add_comm]

theorem blockAt_append_left {x : List Byte} {i : Nat} (h : 16 * i + 16 ≤ x.length) (y : List Byte) :
    blockAt (x ++ y) i = blockAt x i := by
  unfold blockAt
  rw [List.drop_append_of_le_length (by omega), List.take_append_of_le_length (by simp; omega)]

/-- Two sequences of one length with the same blocks are equal. -/
theorem eq_of_blockAt {x y : List Byte} (hl : x.length = y.length)
    (h : ∀ i < blockCount x.length, blockAt x i = blockAt y i) : x = y := by
  refine List.ext_getElem hl fun j h1 h2 => ?_
  have e := h (j / 16) (by unfold blockCount; omega)
  have ex := getD_eq_blockAt x j 0#8
  have ey := getD_eq_blockAt y j 0#8
  rw [e] at ex
  simpa [h1, h2] using ex.trans ey.symm

/-! The loop. -/

variable {f : Block → List Byte → List Byte × Block}

/-- A turn answers as many bytes as it takes: always on whole blocks, and on a short block if the sequence has one. -/
def TurnKeepsLength (f : Block → List Byte → List Byte × Block) (l : Nat) : Prop :=
  ∀ c x, x.length ≤ 16 → (x.length = 16 ∨ l % 16 ≠ 0) → (f c x).1.length = x.length

/-- CHAIN before turn i. -/
def chainAt (f : Block → List Byte → List Byte × Block) (iv : Block) (d : List Byte) : Nat → Block
  | 0 => iv
  | i + 1 => (f (chainAt f iv d i) (blockAt d i)).2

theorem chainAt_drop (iv : Block) (d : List Byte) (i : Nat) :
    chainAt f (f iv (d.take 16)).2 (d.drop 16) i = chainAt f iv d (i + 1) := by
  induction i with
  | zero => simp [chainAt, blockAt_zero]
  | succ i ih => rw [chainAt, ih, blockAt_drop]; rfl

theorem blockCount_succ {n : Nat} (h : 0 < n) : blockCount n = blockCount (n - 16) + 1 := by
  unfold blockCount; omega

/-- One turn and the rest. -/
theorem runBlocks_cons (iv : Block) {d : List Byte} (h : d ≠ []) :
    runBlocks f iv d = (f iv (d.take 16)).1 ++ runBlocks f (f iv (d.take 16)).2 (d.drop 16) := by
  unfold runBlocks
  rw [blockCount_succ (List.length_pos_iff.mpr h), List.length_drop]
  rfl

@[simp] theorem runBlocks_nil (iv : Block) : runBlocks f iv [] = [] := rfl

/-- The loop gives as many bytes as it takes. -/
theorem runBlocks_length (iv : Block) (d : List Byte) (hf : TurnKeepsLength f d.length) :
    (runBlocks f iv d).length = d.length := by
  by_cases h : d = []
  · simp [h]
  · have hp := List.length_pos_iff.mpr h
    have hd : (d.drop 16).length < d.length := by simp; omega
    rw [runBlocks_cons iv h, List.length_append, hf _ _ (by simp) (by simp; omega),
      runBlocks_length _ (d.drop 16) fun c x hx h' => hf c x hx (by simp at h'; omega)]
    simp
    omega
termination_by d.length

/-- Output block i is turn i's answer. -/
theorem blockAt_runBlocks (iv : Block) (d : List Byte) (hf : TurnKeepsLength f d.length) (i : Nat)
    (hi : 16 * i < d.length) : blockAt (runBlocks f iv d) i = (f (chainAt f iv d i) (blockAt d i)).1 := by
  induction i generalizing iv d with
  | zero =>
    have h : d ≠ [] := by rintro rfl; simp at hi
    rw [runBlocks_cons iv h, blockAt_zero]
    by_cases hs : 16 ≤ d.length
    · have hl : (f iv (d.take 16)).1.length = 16 := by
        rw [hf _ _ (by simp) (by simp; omega)]; simp; omega
      rw [List.take_append_of_le_length (by omega), List.take_of_length_le (by omega), blockAt_zero]; rfl
    · have hl : (f iv (d.take 16)).1.length ≤ 16 := by
        rw [hf _ _ (by simp) (by simp; omega)]; simp
      rw [List.drop_eq_nil_of_le (by omega), runBlocks_nil, List.append_nil, List.take_of_length_le hl, blockAt_zero]; rfl
  | succ i ih =>
    have h : d ≠ [] := by rintro rfl; simp at hi
    have hl : (f iv (d.take 16)).1.length = 16 := by
      rw [hf _ _ (by simp) (by simp; omega)]; simp; omega
    have e := ih (f iv (d.take 16)).2 (d.drop 16)
      (fun c x hx h' => hf c x hx (by simp at h'; omega)) (by simp; omega)
    rw [chainAt_drop, blockAt_drop] at e
    rw [runBlocks_cons iv h, ← blockAt_drop, List.drop_left' hl, e]

/-- Byte j of the output. -/
theorem runBlocks_getD (iv : Block) (d : List Byte) (hf : TurnKeepsLength f d.length) (j : Nat) (hj : j < d.length)
    (b : Byte) :
    (runBlocks f iv d).getD j b = (f (chainAt f iv d (j / 16)) (blockAt d (j / 16))).1.getD (j % 16) b := by
  rw [getD_eq_blockAt, blockAt_runBlocks iv d hf _ (by omega)]

/-- The turns on a whole number of blocks see the same CHAIN whatever follows. -/
theorem chainAt_append {x : List Byte} (y : List Byte) (iv : Block) {i : Nat} (h : 16 * i ≤ x.length) :
    chainAt f iv (x ++ y) i = chainAt f iv x i := by
  induction i with
  | zero => rfl
  | succ i ih => rw [chainAt, chainAt, ih (by omega), blockAt_append_left (by omega)]

/-- A message cut after a whole number of blocks. -/
theorem runBlocks_append (iv : Block) (x y : List Byte) (hx : x.length % 16 = 0) :
    runBlocks f iv (x ++ y) = runBlocks f iv x ++ runBlocks f (chainAt f iv x (x.length / 16)) y := by
  by_cases h : x = []
  · simp [h, chainAt]
  · have hp := List.length_pos_iff.mpr h
    have hd : (x.drop 16).length < x.length := by simp; omega
    have e := chainAt_drop (f := f) iv x ((x.drop 16).length / 16)
    rw [runBlocks_cons iv (by simp [h]), List.take_append_of_le_length (by omega),
      List.drop_append_of_le_length (by omega), runBlocks_append _ (x.drop 16) y (by simp; omega), e,
      runBlocks_cons iv h, List.append_assoc]
    congr 4
    simp
    omega
termination_by x.length

/-- A loop undone by a loop whose turns undo its turns and see the same CHAIN. -/
theorem runBlocks_undoes {g : Block → List Byte → List Byte × Block} (iv : Block) (d : List Byte)
    (hf : TurnKeepsLength f d.length)
    (h : ∀ c x, x.length ≤ 16 → (x.length = 16 ∨ d.length % 16 ≠ 0) → g c (f c x).1 = (x, (f c x).2)) :
    runBlocks g iv (runBlocks f iv d) = d := by
  by_cases hn : d = []
  · simp [hn]
  · have hp := List.length_pos_iff.mpr hn
    have hd : (d.drop 16).length < d.length := by simp; omega
    have hl : (f iv (d.take 16)).1.length = (d.take 16).length := hf _ _ (by simp) (by simp; omega)
    have turn := h iv (d.take 16) (by simp) (by simp; omega)
    have rest := runBlocks_undoes (g := g) (f iv (d.take 16)).2 (d.drop 16)
      (fun c x hx h' => hf c x hx (by simp at h'; omega)) (fun c x hx h' => h c x hx (by simp at h'; omega))
    have hc : runBlocks f iv d ≠ [] := by
      rw [← List.length_pos_iff, runBlocks_length iv d hf]; exact hp
    have split : (runBlocks f iv d).take 16 = (f iv (d.take 16)).1 ∧
        (runBlocks f iv d).drop 16 = runBlocks f (f iv (d.take 16)).2 (d.drop 16) := by
      rw [runBlocks_cons iv hn]
      by_cases hs : 16 ≤ d.length
      · have hl : (f iv (d.take 16)).1.length = 16 := by rw [hl]; simp; omega
        exact ⟨by rw [List.take_append_of_le_length (by omega), List.take_of_length_le (by omega)],
          List.drop_left' hl⟩
      · rw [List.drop_eq_nil_of_le (Nat.le_of_not_le hs), runBlocks_nil, List.append_nil]
        exact ⟨List.take_of_length_le (by rw [hl]; simp), List.drop_eq_nil_of_le (by rw [hl]; simp)⟩
    rw [runBlocks_cons iv hc, split.1, split.2, turn, rest, List.take_append_drop]
termination_by d.length

/-! The turns. -/

theorem xorKeystream_length {x : List Byte} (ks : Block) (h : x.length ≤ 16) : (xorKeystream x ks).length = x.length := by
  simp [xorKeystream, h]

theorem xorKeystream_getD (x : List Byte) (ks : Block) (j : Nat) (hj : j < x.length) (hk : j < 16) (b b' : Byte) :
    (xorKeystream x ks).getD j b = x.getD j b' ^^^ ks[j] := by
  simp [xorKeystream, List.getD_eq_getElem?_getD, hj, hk]

/-- The keystream added twice is gone. -/
theorem xorKeystream_undoes {x : List Byte} (ks : Block) (h : x.length ≤ 16) :
    xorKeystream (xorKeystream x ks) ks = x := by
  refine List.ext_getElem (by simp [xorKeystream, h]) fun j h1 h2 => ?_
  simp [xorKeystream]

theorem ecbEncTurn_keeps (e : Block → Block) {l : Nat} (h : l % 16 = 0) : TurnKeepsLength (ecbEncTurn e) l := by
  intro c x _ hx; simp [ecbEncTurn]; omega

theorem ecbDecTurn_keeps (e : Block → Block) {l : Nat} (h : l % 16 = 0) : TurnKeepsLength (ecbDecTurn e) l := by
  intro c x _ hx; simp [ecbDecTurn]; omega

theorem cbcEncTurn_keeps (e : Block → Block) {l : Nat} (h : l % 16 = 0) : TurnKeepsLength (cbcEncTurn e) l := by
  intro c x _ hx; simp [cbcEncTurn]; omega

theorem cbcDecTurn_keeps (e : Block → Block) {l : Nat} (h : l % 16 = 0) : TurnKeepsLength (cbcDecTurn e) l := by
  intro c x _ hx; simp [cbcDecTurn]; omega

theorem cfbEncTurn_keeps (e : Block → Block) (l : Nat) : TurnKeepsLength (cfbEncTurn e) l :=
  fun _ _ h _ => xorKeystream_length _ h

theorem cfbDecTurn_keeps (e : Block → Block) (l : Nat) : TurnKeepsLength (cfbDecTurn e) l :=
  fun _ _ h _ => xorKeystream_length _ h

theorem ofbTurn_keeps (e : Block → Block) (l : Nat) : TurnKeepsLength (ofbTurn e) l :=
  fun _ _ h _ => xorKeystream_length _ h

theorem ctrTurn_keeps (e : Block → Block) (l : Nat) : TurnKeepsLength (ctrTurn e) l :=
  fun _ _ h _ => xorKeystream_length _ h

/-- The number of bytes of the output of a loop of ECB or CBC, whatever the length of the input: whole blocks. -/
theorem runBlocks_length_whole {iv : Block} (hf : ∀ c x, (f c x).1.length = 16) (d : List Byte) :
    (runBlocks f iv d).length = 16 * blockCount d.length := by
  by_cases h : d = []
  · simp [h, blockCount]
  · have hp := List.length_pos_iff.mpr h
    have hd : (d.drop 16).length < d.length := by simp; omega
    rw [runBlocks_cons iv h, List.length_append, hf, runBlocks_length_whole hf (d.drop 16)]
    simp [blockCount]
    omega
termination_by d.length

end Sys2Proof.Machine
end

