-- ==== Sys2Proof/Laws/Operands.lean ====
section
/-! SUPPORT. What the checks on a command's operands answer: the first failing check's error, or the operands. -/

namespace Sys2Proof.Machine

@[simp] theorem firstFailing_nil : firstFailing [] = none := rfl

@[simp] theorem firstFailing_cons (c : Bool × ErrorKind) (l : List (Bool × ErrorKind)) :
    firstFailing (c :: l) = if c.1 then some c.2 else firstFailing l := rfl

theorem firstFailing_append (l m : List (Bool × ErrorKind)) :
    firstFailing (l ++ m) = (firstFailing l).orElse fun _ => firstFailing m := by
  induction l with
  | nil => rfl
  | cons c l ih => simp only [List.cons_append, firstFailing_cons, ih]; split <;> rfl

/-- The checks of a mode command that need no decryption, in their order (43_modes.md R154). -/
def prologueChecks (d : Dir) (m : Mode) (padf ivs : Bool) (s : State) : List (Bool × ErrorKind) :=
  [inputCheck s, scheduleCheck s, ivCheck (decide (m ≠ .ecb) && ivs) s,
    lengthCheck (decide ((m = .ecb ∨ m = .cbc) ∧ (d = .dec ∨ padf = false))) s]

/-- The initial CHAIN that `prologue` hands on; ECB has none. -/
def prologueChain (m : Mode) (ivs : Bool) (s : State) : Block := if m = .ecb then zeroBlock else s.initialChain ivs

/-- `prologue` answers the first failing check's error, or the initial CHAIN and the input. -/
theorem prologue_eq (d : Dir) (m : Mode) (padf ivs : Bool) (s : State) :
    prologue d m padf ivs s =
      match firstFailing (prologueChecks d m padf ivs s) with
      | some e => .error e
      | none => .ok (prologueChain m ivs s, s.input) := by
  by_cases h1 : Config.dcap < s.dlen.toNat
  · simp [prologue, prologueChecks, checkInput, inputCheck, h1, bind, Except.bind]
  · cases h2 : s.ksv
    · simp [prologue, prologueChecks, checkInput, checkSchedule, inputCheck, scheduleCheck, h1, h2, bind, Except.bind]
    · by_cases h3 : s.ivlen = 16#8 <;> by_cases h4 : s.dlen.toNat % 16 = 0 <;> cases d <;> cases m <;> cases padf <;>
        cases ivs <;>
        simp [prologue, prologueChecks, checkInput, checkSchedule, resolve, checkAlignment, prologueChain,
          State.initialChain, inputCheck, scheduleCheck, ivCheck, lengthCheck, h1, h2, h3, h4, bind, Except.bind, pure,
          Except.pure]

/-- `prologue` answers operands exactly when every check passes, and then it hands on the initial CHAIN and the input. -/
theorem prologue_ok_iff (d : Dir) (m : Mode) (padf ivs : Bool) (s : State) (p : Block × List Byte) :
    prologue d m padf ivs s = .ok p ↔
      p = (prologueChain m ivs s, s.input) ∧ s.dlen.toNat ≤ Config.dcap ∧ s.ksv = true ∧
      (m ≠ .ecb → ivs = true → s.ivlen = 16) ∧
      ((m = .ecb ∨ m = .cbc) → (d = .dec ∨ padf = false) → s.dlen.toNat % 16 = 0) := by
  have e3 : (m ≠ .ecb → ivs = true → s.ivlen = 16) ↔ (decide (m ≠ .ecb) && ivs && s.ivlen != 16) = false := by
    cases ivs <;> simp
  have e4 : ((m = .ecb ∨ m = .cbc) → (d = .dec ∨ padf = false) → s.dlen.toNat % 16 = 0) ↔
      (decide ((m = .ecb ∨ m = .cbc) ∧ (d = .dec ∨ padf = false)) && s.dlen.toNat % 16 != 0) = false := by
    cases d <;> cases m <;> cases padf <;> simp
  rw [prologue_eq, e3, e4]
  simp only [prologueChecks, firstFailing_cons, firstFailing_nil, inputCheck, scheduleCheck, ivCheck, lengthCheck,
    decide_eq_true_eq]
  generalize (decide (m ≠ .ecb) && ivs && s.ivlen != 16) = P
  generalize (decide ((m = .ecb ∨ m = .cbc) ∧ (d = .dec ∨ padf = false)) && s.dlen.toNat % 16 != 0) = Q
  by_cases h1 : Config.dcap < s.dlen.toNat
  · simp [h1]
  · cases s.ksv <;> cases P <;> cases Q <;> simp [h1, Nat.not_lt.mp h1, eq_comm]

/-- `prologue` looks at the schedule flag, the input and, where it is used, the IV, and at nothing else. -/
theorem prologue_congr (d : Dir) (m : Mode) (padf ivs : Bool) {s u : State} (h1 : sameSchedule s u) (h2 : sameInput s u)
    (h3 : m ≠ .ecb → sameIv ivs s u) : prologue d m padf ivs s = prologue d m padf ivs u := by
  have hc : prologueChain m ivs s = prologueChain m ivs u := by
    unfold prologueChain State.initialChain
    by_cases hm : m = .ecb
    · simp [hm]
    · cases ivs
      · rfl
      · simp [hm, (h3 hm rfl).2]
  have hi : ivCheck (decide (m ≠ .ecb) && ivs) s = ivCheck (decide (m ≠ .ecb) && ivs) u := by
    unfold ivCheck
    by_cases hm : m = .ecb
    · simp [hm]
    · cases ivs
      · simp
      · rw [(h3 hm rfl).1]
  have hk : prologueChecks d m padf ivs s = prologueChecks d m padf ivs u := by
    unfold prologueChecks
    rw [hi]
    unfold inputCheck scheduleCheck lengthCheck
    rw [h1.2.2, h2.1]
  rw [prologue_eq, prologue_eq, hk, hc, h2.2]

/-- The operands of ENCB and DECB. -/
theorem blockOperand_eq (s : State) :
    blockOperand s =
      match firstFailing [inputCheck s, scheduleCheck s, (s.dlen != 16, .invalidBlockSize)] with
      | some e => .error e
      | none => .ok s.input := by
  simp only [blockOperand, checkInput, checkSchedule, checkOneBlock, inputCheck, scheduleCheck, firstFailing_cons,
    firstFailing_nil, bind, Except.bind, pure, Except.pure, decide_eq_true_eq, bne_iff_ne]
  by_cases h1 : Config.dcap < s.dlen.toNat
  · simp only [h1, if_true]
  · cases h2 : s.ksv
    · simp [h1]
    · by_cases h3 : s.dlen = 16#32
      · simp only [if_neg h1, Bool.not_true, Bool.false_eq_true, if_false, if_true]
        rw [h3]
        rfl
      · simp [h1, h3]

/-- The operands of PAD and UNPAD. -/
theorem padOperand_eq (s : State) :
    padOperand s =
      match firstFailing [inputCheck s] with
      | some e => .error e
      | none => .ok s.input := by
  by_cases h1 : Config.dcap < s.dlen.toNat <;>
    simp [padOperand, checkInput, inputCheck, h1, bind, Except.bind, pure, Except.pure]

end Sys2Proof.Machine
end

