-- ==== Sys2Proof/Laws/Padding.lean ====
section
/-! SUPPORT. The padding module: lengths, the bytes of a padded sequence, and what `unpad` can answer. -/

namespace Sys2Proof.Machine

theorem blockSize_bounds (bs : BitVec 8) : 1 ≤ blockSize bs ∧ blockSize bs ≤ 255 := by
  unfold blockSize
  split
  · decide
  · rename_i h
    have : bs.toNat ≠ 0 := fun e => h (BitVec.eq_of_toNat_eq e)
    omega

theorem padCount_bounds {n : Nat} (h : 1 ≤ n) (l : Nat) : 1 ≤ padCount l n ∧ padCount l n ≤ n := by
  have := Nat.mod_lt l (show 0 < n by omega)
  unfold padCount
  omega

/-- The padded length: a multiple of n. -/
theorem padCount_aligns {n : Nat} (h : 1 ≤ n) (l : Nat) : (l + padCount l n) % n = 0 := by
  have := Nat.mod_lt l (show 0 < n by omega)
  have e := Nat.div_add_mod l n
  unfold padCount
  rw [show l + (n - l % n) = n * (l / n) + n by omega]
  simp

theorem padBytes_length (d : List Byte) {n : Nat} (h : 1 ≤ n) :
    (padBytes d n).length = d.length + padCount d.length n := by
  have := (padCount_bounds h d.length).1
  simp [padBytes, zeros]
  omega

theorem padIf_length (d : List Byte) (padf : Bool) :
    (padIf padf d).length = if padf then d.length + padCount d.length 16 else d.length := by
  cases padf
  · rfl
  · exact padBytes_length d (by decide)

/-- `unpad` fails with InvalidPadding only. -/
theorem unpadBytes_error {d : List Byte} {n : Nat} {e : ErrorKind} (h : unpadBytes d n = .error e) :
    e = .invalidPadding := by
  simp only [unpadBytes] at h
  split at h
  · cases h; rfl
  · split at h
    · cases h; rfl
    · split at h
      · cases h; rfl
      · cases h

/-- What a sequence that `unpad` accepts looks like: k bytes of padding, zeros but for the count at the end. -/
theorem unpadBytes_ok {d x : List Byte} {n : Nat} (h : unpadBytes d n = .ok x) :
    ∃ k, k = (d.getD (d.length - 1) 0x00#8).toNat ∧ 1 ≤ k ∧ k ≤ n ∧ k ≤ 255 ∧ k ≤ d.length ∧ d.length % n = 0 ∧
      x = d.take (d.length - k) ∧ d = x ++ zeros (k - 1) ++ [BitVec.ofNat 8 k] := by
  simp only [unpadBytes] at h
  split at h
  · cases h
  · rename_i h1
    split at h
    · cases h
    · rename_i h2
      split at h
      · cases h
      · rename_i h3
        cases h
        refine ⟨(d.getD (d.length - 1) 0x00#8).toNat, rfl, by omega, by omega, ?_, ?_, by omega, rfl, ?_⟩
        · have := (d.getD (d.length - 1) 0x00#8).isLt; omega
        · have hn : n ≤ d.length := Nat.le_of_dvd (by omega) (Nat.dvd_of_mod_eq_zero (by omega))
          omega
        · have hn : n ≤ d.length := Nat.le_of_dvd (by omega) (Nat.dvd_of_mod_eq_zero (by omega))
          generalize hk : (d.getD (d.length - 1) 0x00#8).toNat = k at *
          simp only [List.any_eq_true, not_exists, not_and, bne_iff_ne, ne_eq, not_not] at h3
          have hz : (d.drop (d.length - k)).take (k - 1) = zeros (k - 1) := by
            rw [zeros, List.eq_replicate_iff]
            exact ⟨by simp; omega, h3⟩
          have hlast : (d.drop (d.length - k)).drop (k - 1) = [BitVec.ofNat 8 k] := by
            rw [List.drop_drop, show d.length - k + (k - 1) = d.length - 1 by omega]
            rw [List.drop_eq_getElem_cons (show d.length - 1 < d.length by omega), List.drop_eq_nil_of_le (by omega)]
            have : d[d.length - 1]'(by omega) = d.getD (d.length - 1) 0x00#8 := by simp [show d.length - 1 < d.length by omega]
            rw [this, ← hk]
            simp
          rw [← hz, ← hlast, List.append_assoc, List.take_append_drop, List.take_append_drop]

/-- A command's unpadding: the padding flag off passes the bytes on. -/
theorem unpadIf_error {padf : Bool} {d : List Byte} {e : ErrorKind} (h : unpadIf padf d = .error e) :
    e = .invalidPadding ∧ padf = true := by
  cases padf
  · cases h
  · exact ⟨unpadBytes_error h, rfl⟩

theorem unpadIf_ok_length {padf : Bool} {d x : List Byte} (h : unpadIf padf d = .ok x) : x.length ≤ d.length := by
  cases padf
  · cases h; exact Nat.le_refl _
  · obtain ⟨k, -, -, -, -, -, -, rfl, -⟩ := unpadBytes_ok h
    simp

end Sys2Proof.Machine
end

