-- ==== Sys2Proof/Laws/Exec.lean ====
section
/-! SUPPORT. What a command can do, said once: its result or its error, computed from its operands, and the one way each
of them is written into the state. -/

namespace Sys2Proof.Machine

/-- The commands that use CHAIN: CBC, CFB, OFB and CTR (43_modes.md R170). -/
def usesChain : Instr → Bool
  | .expand => false
  | .encb => false
  | .decb => false
  | .encEcb _ _ => false
  | .decEcb _ _ => false
  | .encCbc _ _ => true
  | .decCbc _ _ => true
  | .encCfb _ _ => true
  | .decCfb _ _ => true
  | .encOfb _ _ => true
  | .decOfb _ _ => true
  | .encCtr _ _ => true
  | .decCtr _ _ => true
  | .pad _ => false
  | .unpad _ => false

/-- The result or the error of a command; EXPAND has no output bytes. -/
def commandResult : Instr → State → Except ErrorKind (List Byte)
  | .expand, s => if s.keylen = 16 ∨ s.keylen = 24 ∨ s.keylen = 32 then .ok [] else .error .invalidKeySize
  | .encb, s => (blockOperand s).map fun b => (s.encryptBlock (blockOf b)).toList
  | .decb, s => (blockOperand s).map fun c => (s.decryptBlock (blockOf c)).toList
  | .encEcb nopad ivs, s => (prologue .enc .ecb (padFlag nopad) ivs s).map fun p =>
      runBlocks (ecbEncTurn s.encryptBlock) p.1 (padIf (padFlag nopad) p.2)
  | .decEcb nopad ivs, s => (prologue .dec .ecb (padFlag nopad) ivs s).bind fun p =>
      unpadIf (padFlag nopad) (runBlocks (ecbDecTurn s.decryptBlock) p.1 p.2)
  | .encCbc nopad ivs, s => (prologue .enc .cbc (padFlag nopad) ivs s).map fun p =>
      runBlocks (cbcEncTurn s.encryptBlock) p.1 (padIf (padFlag nopad) p.2)
  | .decCbc nopad ivs, s => (prologue .dec .cbc (padFlag nopad) ivs s).bind fun p =>
      unpadIf (padFlag nopad) (runBlocks (cbcDecTurn s.decryptBlock) p.1 p.2)
  | .encCfb nopad ivs, s => (prologue .enc .cfb (padFlag nopad) ivs s).map fun p =>
      runBlocks (cfbEncTurn s.encryptBlock) p.1 p.2
  | .decCfb nopad ivs, s => (prologue .dec .cfb (padFlag nopad) ivs s).map fun p =>
      runBlocks (cfbDecTurn s.encryptBlock) p.1 p.2
  | .encOfb nopad ivs, s => (prologue .enc .ofb (padFlag nopad) ivs s).map fun p =>
      runBlocks (ofbTurn s.encryptBlock) p.1 p.2
  | .decOfb nopad ivs, s => (prologue .dec .ofb (padFlag nopad) ivs s).map fun p =>
      runBlocks (ofbTurn s.encryptBlock) p.1 p.2
  | .encCtr nopad ivs, s => (prologue .enc .ctr (padFlag nopad) ivs s).map fun p =>
      runBlocks (ctrTurn s.encryptBlock) p.1 p.2
  | .decCtr nopad ivs, s => (prologue .dec .ctr (padFlag nopad) ivs s).map fun p =>
      runBlocks (ctrTurn s.encryptBlock) p.1 p.2
  | .pad bs, s => (padOperand s).map fun d => padBytes d (blockSize bs)
  | .unpad bs, s => (padOperand s).bind fun d => unpadBytes d (blockSize bs)

/-- How a command's result is written into the state. -/
def afterCommand (i : Instr) (s : State) (out : List Byte) : State :=
  if i = .expand then s.storeSchedule (expandKey s.key).1 (expandKey s.key).2
  else if usesChain i then (s.complete out).clearChain
  else s.complete out

/-- A command answers a next state, always: its error raised, or its result written (60_exceptions.md R223). -/
theorem exec_eq (i : Instr) (s : State) :
    exec i s =
      match commandResult i s with
      | .error e => .next (s.raise e)
      | .ok out => .next (afterCommand i s out) := by
  cases i
  case expand => simp only [exec, execExpand, commandResult, afterCommand]; split <;> rfl
  all_goals rfl

/-- What a command can have done when it answers a next state. -/
theorem exec_cases {i : Instr} {s t : State} (h : exec i s = .next t) :
    (∃ e, commandResult i s = .error e ∧ t = s.raise e) ∨
    ∃ out, commandResult i s = .ok out ∧ t = afterCommand i s out := by
  rw [exec_eq] at h
  cases hr : commandResult i s with
  | error e => rw [hr] at h; injection h with h; exact .inl ⟨e, rfl, h.symm⟩
  | ok out => rw [hr] at h; injection h with h; exact .inr ⟨out, rfl, h.symm⟩

/-- No error kind has the code of success (60_exceptions.md R200). -/
theorem ErrorKind.code_ne_zero (e : ErrorKind) : e.code ≠ 0 := by cases e <;> decide

theorem ErrorKind.code_le (e : ErrorKind) : e.code.toNat ≤ 6 := by cases e <;> decide

/-- Distinct kinds have distinct codes. -/
theorem ErrorKind.code_inj {e e' : ErrorKind} (h : e.code = e'.code) : e = e' := by
  cases e <;> cases e' <;> first | rfl | (exact absurd h (by decide))

/-! What a completed command leaves: each field of `afterCommand`. -/

variable (i : Instr) (s : State) (out : List Byte)

@[simp] theorem afterCommand_err : (afterCommand i s out).err = 0 := by
  unfold afterCommand; split; · rfl
  split <;> rfl

@[simp] theorem afterCommand_keybuf : (afterCommand i s out).keybuf = s.keybuf := by
  unfold afterCommand; split; · rfl
  split <;> rfl

@[simp] theorem afterCommand_keylen : (afterCommand i s out).keylen = s.keylen := by
  unfold afterCommand; split; · rfl
  split <;> rfl

@[simp] theorem afterCommand_ivbuf : (afterCommand i s out).ivbuf = s.ivbuf := by
  unfold afterCommand; split; · rfl
  split <;> rfl

@[simp] theorem afterCommand_ivlen : (afterCommand i s out).ivlen = s.ivlen := by
  unfold afterCommand; split; · rfl
  split <;> rfl

@[simp] theorem afterCommand_din : (afterCommand i s out).din = s.din := by
  unfold afterCommand; split; · rfl
  split <;> rfl

@[simp] theorem afterCommand_dlen : (afterCommand i s out).dlen = s.dlen := by
  unfold afterCommand; split; · rfl
  split <;> rfl

@[simp] theorem afterCommand_resets : (afterCommand i s out).resets = s.resets := by
  unfold afterCommand; split; · rfl
  split <;> rfl

@[simp] theorem afterCommand_pending : (afterCommand i s out).pending = s.pending := by
  unfold afterCommand; split; · rfl
  split <;> rfl

@[simp] theorem afterCommand_reply : (afterCommand i s out).reply = s.reply := by
  unfold afterCommand; split; · rfl
  split <;> rfl

theorem afterCommand_dout (h : i ≠ .expand) : (afterCommand i s out).dout = s.dout.write 0 out := by
  unfold afterCommand; rw [if_neg h]; split <;> rfl

theorem afterCommand_olen (h : i ≠ .expand) : (afterCommand i s out).olen = BitVec.ofNat 32 out.length := by
  unfold afterCommand; rw [if_neg h]; split <;> rfl

theorem afterCommand_schedule (h : i ≠ .expand) :
    (afterCommand i s out).rk = s.rk ∧ (afterCommand i s out).nr = s.nr ∧ (afterCommand i s out).ksv = s.ksv := by
  unfold afterCommand; rw [if_neg h]; split <;> exact ⟨rfl, rfl, rfl⟩

theorem afterCommand_chain :
    (afterCommand i s out).chain = if usesChain i then zeroBlock else s.chain := by
  unfold afterCommand
  by_cases h : i = .expand
  · subst h; rfl
  · rw [if_neg h]; split <;> rfl

theorem afterCommand_doutByte (h : i ≠ .expand) (k : Nat) :
    (afterCommand i s out).doutByte k = if k < out.length then out.getD k 0x00#8 else s.doutByte k := by
  rw [← State.complete_doutByte]
  unfold afterCommand; rw [if_neg h]; split <;> rfl

theorem afterCommand_output (h : i ≠ .expand) (hl : out.length < 2 ^ 32) : (afterCommand i s out).output = out := by
  rw [← State.complete_output s out hl]
  unfold afterCommand; rw [if_neg h, State.complete_output s out hl]
  split
  · rw [State.clearChain_output, State.complete_output s out hl]
  · exact State.complete_output s out hl

/-! The size of a result. -/

theorem map_eq_ok {α β : Type} {f : α → β} {r : Except ErrorKind α} {b : β} (h : r.map f = .ok b) :
    ∃ a, r = .ok a ∧ b = f a := by
  cases r with
  | error e => cases h
  | ok a => injection h with h; exact ⟨a, rfl, h.symm⟩

theorem bind_eq_ok {α β : Type} {f : α → Except ErrorKind β} {r : Except ErrorKind α} {b : β} (h : r.bind f = .ok b) :
    ∃ a, r = .ok a ∧ f a = .ok b := by
  cases r with
  | error e => cases h
  | ok a => exact ⟨a, rfl, h⟩

theorem blockOperand_ok {s : State} {b : List Byte} (h : blockOperand s = .ok b) :
    b = s.input ∧ s.dlen.toNat ≤ Config.dcap ∧ s.ksv = true ∧ s.dlen = 16 := by
  rw [blockOperand_eq] at h
  simp only [firstFailing_cons, firstFailing_nil, inputCheck, scheduleCheck, decide_eq_true_eq, bne_iff_ne] at h
  split at h
  · cases h
  · rename_i h'
    injection h with h
    refine ⟨h.symm, ?_⟩
    split at h'
    · cases h'
    · split at h'
      · cases h'
      · split at h'
        · cases h'
        · simp_all

theorem padOperand_ok {s : State} {b : List Byte} (h : padOperand s = .ok b) :
    b = s.input ∧ s.dlen.toNat ≤ Config.dcap := by
  rw [padOperand_eq] at h
  simp only [firstFailing_cons, firstFailing_nil, inputCheck, decide_eq_true_eq] at h
  split at h
  · cases h
  · rename_i h'
    injection h with h
    refine ⟨h.symm, ?_⟩
    split at h'
    · cases h'
    · omega

/-- The result of a stream mode is as long as its input. -/
theorem stream_length {f : Block → List Byte → List Byte × Block} (hf : ∀ l, TurnKeepsLength f l) {d : Dir} {m : Mode}
    {padf ivs : Bool} {s : State} {out : List Byte}
    (h : (prologue d m padf ivs s).map (fun p => runBlocks f p.1 p.2) = .ok out) :
    out.length = s.dlen.toNat ∧ s.dlen.toNat ≤ Config.dcap := by
  obtain ⟨p, hp, rfl⟩ := map_eq_ok h
  obtain ⟨rfl, hd, -⟩ := (prologue_ok_iff _ _ _ _ _ _).mp hp
  exact ⟨by rw [runBlocks_length _ _ (hf _), s.input_length], hd⟩

/-- A result fits DOUT (10_state.md R22). -/
theorem commandResult_length {i : Instr} {s : State} {out : List Byte} (h : commandResult i s = .ok out) :
    out.length ≤ Config.ocap := by
  have cap : Config.ocap = Config.dcap + 255 := rfl
  have bounds := Config.dcap_bounds
  have padded : ∀ padf : Bool, (padIf padf s.input).length ≤ s.dlen.toNat + 16 := by
    intro padf
    rw [padIf_length, s.input_length]
    have := padCount_bounds (n := 16) (by decide) s.dlen.toNat
    split <;> omega
  cases i
  case expand =>
    simp only [commandResult] at h
    split at h <;> cases h
    simp
  case encb => obtain ⟨b, -, rfl⟩ := map_eq_ok h; simp; omega
  case decb => obtain ⟨b, -, rfl⟩ := map_eq_ok h; simp; omega
  case encEcb nopad ivs =>
    obtain ⟨p, hp, rfl⟩ := map_eq_ok h
    obtain ⟨rfl, hd, -⟩ := (prologue_ok_iff _ _ _ _ _ _).mp hp
    rw [runBlocks_length_whole fun c x => by simp [ecbEncTurn]]
    have := padded (padFlag nopad)
    dsimp only
    unfold blockCount
    omega
  case encCbc nopad ivs =>
    obtain ⟨p, hp, rfl⟩ := map_eq_ok h
    obtain ⟨rfl, hd, -⟩ := (prologue_ok_iff _ _ _ _ _ _).mp hp
    rw [runBlocks_length_whole fun c x => by simp [cbcEncTurn]]
    have := padded (padFlag nopad)
    dsimp only
    unfold blockCount
    omega
  case decEcb nopad ivs =>
    obtain ⟨p, hp, h⟩ := bind_eq_ok h
    obtain ⟨rfl, hd, -⟩ := (prologue_ok_iff _ _ _ _ _ _).mp hp
    have := unpadIf_ok_length h
    rw [runBlocks_length_whole fun c x => by simp [ecbDecTurn], s.input_length] at this
    unfold blockCount at this
    omega
  case decCbc nopad ivs =>
    obtain ⟨p, hp, h⟩ := bind_eq_ok h
    obtain ⟨rfl, hd, -⟩ := (prologue_ok_iff _ _ _ _ _ _).mp hp
    have := unpadIf_ok_length h
    rw [runBlocks_length_whole fun c x => by simp [cbcDecTurn], s.input_length] at this
    unfold blockCount at this
    omega
  case pad bs =>
    obtain ⟨b, hp, rfl⟩ := map_eq_ok h
    obtain ⟨rfl, hd⟩ := padOperand_ok hp
    have hb := blockSize_bounds bs
    have hc := padCount_bounds hb.1 s.dlen.toNat
    rw [padBytes_length _ hb.1, s.input_length]
    omega
  case unpad bs =>
    obtain ⟨b, hp, h⟩ := bind_eq_ok h
    obtain ⟨rfl, hd⟩ := padOperand_ok hp
    obtain ⟨k, -, -, -, -, -, -, rfl, -⟩ := unpadBytes_ok h
    simp
    omega
  case encCfb nopad ivs => have := stream_length (cfbEncTurn_keeps _) h; omega
  case decCfb nopad ivs => have := stream_length (cfbDecTurn_keeps _) h; omega
  case encOfb nopad ivs => have := stream_length (ofbTurn_keeps _) h; omega
  case decOfb nopad ivs => have := stream_length (ofbTurn_keeps _) h; omega
  case encCtr nopad ivs => have := stream_length (ctrTurn_keeps _) h; omega
  case decCtr nopad ivs => have := stream_length (ctrTurn_keeps _) h; omega

theorem commandResult_length_lt {i : Instr} {s : State} {out : List Byte} (h : commandResult i s = .ok out) :
    out.length < 2 ^ 32 := Nat.lt_of_le_of_lt (commandResult_length h) Config.ocap_lt

/-- OLEN counts the result. -/
theorem afterCommand_olen_toNat {i : Instr} {s : State} {out : List Byte} (hi : i ≠ .expand)
    (h : commandResult i s = .ok out) : (afterCommand i s out).olen.toNat = out.length := by
  rw [afterCommand_olen i s out hi, BitVec.toNat_ofNat, Nat.mod_eq_of_lt (commandResult_length_lt h)]

/-- E and D under the same schedule are the same functions. -/
theorem encryptBlock_congr {s u : State} (h : sameSchedule s u) : s.encryptBlock = u.encryptBlock := by
  funext b; unfold State.encryptBlock; rw [h.1, h.2.1]

theorem decryptBlock_congr {s u : State} (h : sameSchedule s u) : s.decryptBlock = u.decryptBlock := by
  funext b; unfold State.decryptBlock; rw [h.1, h.2.1]

/-- The operands of ENCB and DECB are the schedule flag and the input. -/
theorem blockOperand_congr {s u : State} (h1 : sameSchedule s u) (h2 : sameInput s u) :
    blockOperand s = blockOperand u := by
  rw [blockOperand_eq, blockOperand_eq]
  unfold inputCheck scheduleCheck
  rw [h1.2.2, h2.1, h2.2]

theorem padOperand_congr {s u : State} (h : sameInput s u) : padOperand s = padOperand u := by
  rw [padOperand_eq, padOperand_eq]
  unfold inputCheck
  rw [h.1, h.2]

end Sys2Proof.Machine
end

