-- ==== Sys2Proof/Laws/Bus.lean ====
section
/-! SUPPORT. The address map region by region, and what one host transaction, and so one step, can do. -/

namespace Sys2Proof.Machine

/-- The first address of a region (20_memory.md R44). -/
def Region.base : Region → Nat
  | .csr => 0x00000000
  | .keybuf => 0x00000100
  | .ivbuf => 0x00000120
  | .rk => 0x00000200
  | .din => 0x40000000
  | .dout => 0x80000000

/-- The size of a region in bytes (20_memory.md R44). -/
def Region.size : Region → Nat
  | .csr => 24
  | .keybuf => 32
  | .ivbuf => 16
  | .rk => 240
  | .din => Config.dcap
  | .dout => Config.ocap

/-- An address lies in a region exactly when it is the region's first address plus an index below its size. -/
theorem locate_eq_some {a : Word32} {r : Region} {k : Nat} :
    locate a = some (r, k) ↔ a.toNat = r.base + k ∧ k < r.size := by
  have hd := Config.dcap_bounds
  have ho : Config.ocap = Config.dcap + 255 := rfl
  constructor
  · intro h
    simp only [locate, Option.map_eq_some_iff] at h
    obtain ⟨row, hrow, he⟩ := h
    have hp := List.find?_some hrow
    have hm := List.mem_of_find?_eq_some hrow
    simp only [addressMap, List.mem_cons, List.not_mem_nil, or_false] at hm
    rcases hm with rfl | rfl | rfl | rfl | rfl | rfl <;>
      simp only [Prod.mk.injEq, Bool.and_eq_true, decide_eq_true_eq] at he hp <;> obtain ⟨rfl, rfl⟩ := he <;>
      simp only [Region.base, Region.size] <;> omega
  · rintro ⟨h1, h2⟩
    cases r <;> simp only [Region.base, Region.size] at h1 h2 <;> simp only [locate, addressMap, List.find?_cons]
    · rw [show (decide (0 ≤ a.toNat) && decide (a.toNat - 0 < 24)) = true by simp; omega]
      simp; omega
    · rw [show (decide (0 ≤ a.toNat) && decide (a.toNat - 0 < 24)) = false by simp; omega,
        show (decide (256 ≤ a.toNat) && decide (a.toNat - 256 < 32)) = true by simp; omega]
      simp; omega
    · rw [show (decide (0 ≤ a.toNat) && decide (a.toNat - 0 < 24)) = false by simp; omega,
        show (decide (256 ≤ a.toNat) && decide (a.toNat - 256 < 32)) = false by simp; omega,
        show (decide (288 ≤ a.toNat) && decide (a.toNat - 288 < 16)) = true by simp; omega]
      simp; omega
    · rw [show (decide (0 ≤ a.toNat) && decide (a.toNat - 0 < 24)) = false by simp; omega,
        show (decide (256 ≤ a.toNat) && decide (a.toNat - 256 < 32)) = false by simp; omega,
        show (decide (288 ≤ a.toNat) && decide (a.toNat - 288 < 16)) = false by simp; omega,
        show (decide (512 ≤ a.toNat) && decide (a.toNat - 512 < 240)) = true by simp; omega]
      simp; omega
    · rw [show (decide (0 ≤ a.toNat) && decide (a.toNat - 0 < 24)) = false by simp; omega,
        show (decide (256 ≤ a.toNat) && decide (a.toNat - 256 < 32)) = false by simp; omega,
        show (decide (288 ≤ a.toNat) && decide (a.toNat - 288 < 16)) = false by simp; omega,
        show (decide (512 ≤ a.toNat) && decide (a.toNat - 512 < 240)) = false by simp; omega,
        show (decide (1073741824 ≤ a.toNat) && decide (a.toNat - 1073741824 < Config.dcap)) = true by simp; omega]
      simp; omega
    · rw [show (decide (0 ≤ a.toNat) && decide (a.toNat - 0 < 24)) = false by simp; omega,
        show (decide (256 ≤ a.toNat) && decide (a.toNat - 256 < 32)) = false by simp; omega,
        show (decide (288 ≤ a.toNat) && decide (a.toNat - 288 < 16)) = false by simp; omega,
        show (decide (512 ≤ a.toNat) && decide (a.toNat - 512 < 240)) = false by simp; omega,
        show (decide (1073741824 ≤ a.toNat) && decide (a.toNat - 1073741824 < Config.dcap)) = false by simp; omega,
        show (decide (2147483648 ≤ a.toNat) && decide (a.toNat - 2147483648 < Config.ocap)) = true by simp; omega]
      simp; omega

/-- Byte k of a buffer; the registers have no bytes. -/
def State.regionByte (s : State) : Region → Nat → Byte
  | .csr, _ => 0x00#8
  | .keybuf, k => s.keybufByte k
  | .ivbuf, k => s.ivbufByte k
  | .rk, k => s.rkByte k
  | .din, k => s.dinByte k
  | .dout, k => s.doutByte k

/-- A byte read answers the byte of the buffer the address lies in. -/
theorem read8_eq (s : State) {a : Word32} {r : Region} {k : Nat} (hr : r ≠ .csr) (h1 : a.toNat = r.base + k)
    (h2 : k < r.size) : s.read8 a = some (s.regionByte r k) := by
  have h := locate_eq_some.mpr ⟨h1, h2⟩
  unfold State.read8
  rw [h]
  cases r <;> first | exact absurd rfl hr | rfl

/-- A byte access is answered in the five buffer regions and nowhere else (20_memory.md R48, R52). -/
theorem read8_isSome (s : State) (a : Word32) : (s.read8 a).isSome ↔ ∃ r k, r ≠ .csr ∧ locate a = some (r, k) := by
  unfold State.read8
  constructor
  · intro h
    cases hl : locate a with
    | none => rw [hl] at h; cases h
    | some p =>
      obtain ⟨r, k⟩ := p
      refine ⟨r, k, ?_, rfl⟩
      rintro rfl
      rw [hl] at h
      cases h
  · rintro ⟨r, k, hr, hl⟩
    rw [hl]
    cases r <;> first | exact absurd rfl hr | rfl

theorem write8_isSome (s : State) (a : Word32) (b : Byte) :
    (s.write8 a b).isSome ↔ ∃ r k, r ≠ .csr ∧ locate a = some (r, k) := by
  unfold State.write8
  constructor
  · intro h
    cases hl : locate a with
    | none => rw [hl] at h; cases h
    | some p =>
      obtain ⟨r, k⟩ := p
      refine ⟨r, k, ?_, rfl⟩
      rintro rfl
      rw [hl] at h
      cases h
  · rintro ⟨r, k, hr, hl⟩
    rw [hl]
    cases r <;> first | exact absurd rfl hr | rfl

/-- What a write of c to CMD can do: a raised error that stands for a word that names no command or for a command that
fails, or the written result of a command. -/
theorem runCommand_cases {c : Word32} {s t : State} (h : runCommand c s = .next t) :
    (∃ e, t = s.raise e) ∨ ∃ i out, decode c = .ok i ∧ commandResult i s = .ok out ∧ t = afterCommand i s out := by
  unfold runCommand at h
  cases hd : decode c with
  | error _ => rw [hd] at h; injection h with h; exact .inl ⟨_, h.symm⟩
  | ok i =>
    rw [hd] at h
    rcases exec_cases h with ⟨e, -, ht⟩ | ⟨out, hr, ht⟩
    · exact .inl ⟨e, ht⟩
    · exact .inr ⟨i, out, rfl, hr, ht⟩

/-- A write to CMD always answers a next state. -/
theorem runCommand_next (c : Word32) (s : State) : ∃ t, runCommand c s = .next t := by
  unfold runCommand
  cases decode c with
  | error _ => exact ⟨_, rfl⟩
  | ok i =>
    simp only [exec_eq]
    cases commandResult i s with
    | error e => exact ⟨_, rfl⟩
    | ok out => exact ⟨_, rfl⟩

/-- A byte write changes at most one byte of KEYBUF, IVBUF or DIN. -/
theorem write8_cases {s t : State} {a : Word32} {b : Byte} (h : s.write8 a b = some t) :
    (∃ k, locate a = some (.keybuf, k) ∧ t = { s with keybuf := s.keybuf.setIfInBounds k b }) ∨
    (∃ k, locate a = some (.ivbuf, k) ∧ t = { s with ivbuf := s.ivbuf.setIfInBounds k b }) ∨
    (∃ k, locate a = some (.din, k) ∧ t = { s with din := s.din.write k [b] }) ∨
    ∃ k, (locate a = some (.rk, k) ∨ locate a = some (.dout, k)) ∧ t = s := by
  unfold State.write8 at h
  split at h <;> cases h
  case h_1 k hl => exact .inl ⟨k, hl, rfl⟩
  case h_2 k hl => exact .inr (.inl ⟨k, hl, rfl⟩)
  case h_3 k hl => exact .inr (.inr (.inr ⟨k, .inl hl, rfl⟩))
  case h_4 k hl => exact .inr (.inr (.inl ⟨k, hl, rfl⟩))
  case h_5 k hl => exact .inr (.inr (.inr ⟨k, .inr hl, rfl⟩))

/-- A register write runs a command, or changes at most KEYLEN, IVLEN or DLEN. -/
theorem write32_cases {s t : State} {a v : Word32} (h : s.write32 a v = .next t) :
    (a = 0x00 ∧ runCommand v s = .next t) ∨ (a = 0x08 ∧ t = { s with keylen := v.setWidth 8 }) ∨
    (a = 0x0C ∧ t = { s with ivlen := v.setWidth 8 }) ∨ (a = 0x10 ∧ t = { s with dlen := v }) ∨
    ((a = 0x04 ∨ a = 0x14) ∧ t = s) := by
  unfold State.write32 at h
  split at h
  case h_1 ha => exact .inl ⟨BitVec.eq_of_toNat_eq ha, h⟩
  case h_2 ha => cases h; exact .inr (.inr (.inr (.inr ⟨.inl (BitVec.eq_of_toNat_eq ha), rfl⟩)))
  case h_3 ha => cases h; exact .inr (.inl ⟨BitVec.eq_of_toNat_eq ha, rfl⟩)
  case h_4 ha => cases h; exact .inr (.inr (.inl ⟨BitVec.eq_of_toNat_eq ha, rfl⟩))
  case h_5 ha => cases h; exact .inr (.inr (.inr (.inl ⟨BitVec.eq_of_toNat_eq ha, rfl⟩)))
  case h_6 ha => cases h; exact .inr (.inr (.inr (.inr ⟨.inr (BitVec.eq_of_toNat_eq ha), rfl⟩)))
  case h_7 => cases h

/-- What a step can do: nothing when the core is idle, else the host's next transaction. -/
theorem step_cases {s t : State} (h : step s = .next t) :
    (s.pending = [] ∧ t = s) ∨
    ∃ x rest, s.pending = x :: rest ∧ perform x { s with pending := rest } = .next t := by
  unfold step stepHost at h
  split at h
  case h_1 hp => cases h; exact .inl ⟨hp, rfl⟩
  case h_2 x rest hp => exact .inr ⟨x, rest, hp, h⟩

theorem step_of_pending {s : State} {x : HostTxn} {rest : List HostTxn} (h : s.pending = x :: rest) :
    step s = perform x { s with pending := rest } := by
  unfold step stepHost
  rw [h]

/-- What a transaction that answers a next state can do. -/
theorem perform_cases {x : HostTxn} {s t : State} (h : perform x s = .next t) :
    (∃ r, t = { s with reply := r }) ∨ (∃ a b, x = .write8 a b ∧ s.write8 a b = some t) ∨
    (∃ a v, x = .write32 a v ∧ s.write32 a v = .next t) ∨ (x = .reset ∧ t = s.resetEvent) := by
  cases x with
  | read8 a =>
    simp only [perform] at h
    split at h
    · cases h; exact .inl ⟨_, rfl⟩
    · cases h
  | write8 a b =>
    simp only [perform] at h
    split at h
    · rename_i s' hs; cases h; exact .inr (.inl ⟨a, b, rfl, hs⟩)
    · cases h
  | read32 a =>
    simp only [perform] at h
    split at h
    · cases h; exact .inl ⟨_, rfl⟩
    · cases h
  | write32 a v => exact .inr (.inr (.inl ⟨a, v, rfl, h⟩))
  | reset => cases h; exact .inr (.inr (.inr ⟨rfl, rfl⟩))
  | otherWidth bits a => cases h

end Sys2Proof.Machine
end

