-- ==== Sys2Proof/Laws/Decode.lean ====
section
/-! SUPPORT. A command word and its fields determine each other, and what decoding a record of fields can answer. -/

namespace Sys2Proof

/-- Bit i of the word with the given fields. -/
theorem joinC_getLsbD (f : FormatC) (i : Nat) :
    (joinC f).getLsbD i =
      if i < 4 then f.op.getLsbD i
      else if i < 7 then f.mode.getLsbD (i - 4)
      else if i < 8 then f.nopad
      else if i < 9 then f.ivs
      else if i < 16 then f.reservedLow.getLsbD (i - 9)
      else if i < 24 then f.bs.getLsbD (i - 16)
      else f.reservedHigh.getLsbD (i - 24) := by
  unfold joinC
  erw [BitVec.getLsbD_append, BitVec.getLsbD_append, BitVec.getLsbD_append, BitVec.getLsbD_append,
    BitVec.getLsbD_append, BitVec.getLsbD_append]
  have e1 : (i - 4 < 3) = (i < 7) := by simp; omega
  have e2 : (i - 4 - 3 < 1) = (i < 8) := by simp; omega
  have e3 : (i - 4 - 3 - 1 < 1) = (i < 9) := by simp; omega
  have e4 : i - 4 - 3 - 1 - 1 = i - 9 := by omega
  have e5 : (i - 9 < 7) = (i < 16) := by simp; omega
  have e6 : i - 9 - 7 = i - 16 := by omega
  have e7 : (i - 16 < 8) = (i < 24) := by simp; omega
  have e8 : i - 16 - 8 = i - 24 := by omega
  have o1 : ¬i < 7 → i < 8 → i = 7 := by omega
  have o2 : ¬i < 8 → i < 9 → i = 8 := by omega
  simp only [e1, e2, e3, e4, e5, e6, e7, e8]
  repeat' split
  all_goals simp_all

theorem splitC_joinC (f : FormatC) : splitC (joinC f) = f := by
  obtain ⟨op, mode, nopad, ivs, lo, bs, hi⟩ := f
  simp only [splitC, FormatC.mk.injEq, joinC_getLsbD]
  refine ⟨?_, ?_, by simp, by simp, ?_, ?_, ?_⟩ <;> refine BitVec.eq_of_getLsbD_eq fun i h => ?_ <;>
    simp only [BitVec.getLsbD_extractLsb', joinC_getLsbD, h, decide_true, Bool.true_and]
  · simp [h]
  · simp [show ¬ 4 + i < 4 by omega, show 4 + i < 7 by omega]
  · simp [show ¬ 9 + i < 4 by omega, show ¬ 9 + i < 7 by omega, show ¬ 9 + i < 8 by omega, show 9 + i < 16 by omega]
  · simp [show ¬ 16 + i < 4 by omega, show ¬ 16 + i < 7 by omega, show ¬ 16 + i < 8 by omega,
      show ¬ 16 + i < 9 by omega, show 16 + i < 24 by omega]
  · simp [show ¬ 24 + i < 4 by omega, show ¬ 24 + i < 7 by omega, show ¬ 24 + i < 8 by omega,
      show ¬ 24 + i < 9 by omega, show ¬ 24 + i < 16 by omega]

theorem joinC_splitC (c : Word32) : joinC (splitC c) = c := by
  refine BitVec.eq_of_getLsbD_eq fun i h => ?_
  simp only [joinC_getLsbD, splitC, BitVec.getLsbD_extractLsb']
  repeat' split
  · simp_all
  · simp [show i - 4 < 3 by omega, show 4 + (i - 4) = i by omega]
  · rw [show i = 7 by omega]
  · rw [show i = 8 by omega]
  · simp [show i - 9 < 7 by omega, show 9 + (i - 9) = i by omega]
  · simp [show i - 16 < 8 by omega, show 16 + (i - 16) = i by omega]
  · simp [show i - 24 < 8 by omega, show 24 + (i - 24) = i by omega]

end Sys2Proof
end

