-- ==== Sys2Proof/Laws/KeySchedule.lean ====
section
/-! SUPPORT. The key schedule word by word, and the round keys it packs. -/

namespace Sys2Proof.Machine

theorem appendWord_length (nk : Nat) (ws : List KeyWord) : (appendWord nk ws).length = ws.length + 1 := by
  simp [appendWord]

theorem appendWord_getD_lt (nk : Nat) (ws : List KeyWord) {i : Nat} (h : i < ws.length) :
    (appendWord nk ws).getD i zeroWord = ws.getD i zeroWord := by
  simp [appendWord, List.getD_eq_getElem?_getD, List.getElem?_append_left h]

theorem appendWord_getD_length (nk : Nat) (ws : List KeyWord) :
    (appendWord nk ws).getD ws.length zeroWord =
      xorWord (ws.getD (ws.length - nk) zeroWord)
        (scheduleTerm nk ws.length (ws.getD (ws.length - 1) zeroWord)) := by
  simp [appendWord, List.getD_eq_getElem?_getD]

theorem appendWords_length (nk n : Nat) : ∀ ws : List KeyWord, (appendWords nk n ws).length = ws.length + n := by
  induction n with
  | zero => intro ws; rfl
  | succ n ih => intro ws; rw [appendWords, ih, appendWord_length]; omega

/-- The words already there stay. -/
theorem appendWords_getD_lt (nk n : Nat) : ∀ (ws : List KeyWord) {i : Nat}, i < ws.length →
    (appendWords nk n ws).getD i zeroWord = ws.getD i zeroWord := by
  induction n with
  | zero => intro ws i _; rfl
  | succ n ih =>
    intro ws i h
    rw [appendWords, ih _ (by rw [appendWord_length]; omega), appendWord_getD_lt nk ws h]

/-- Each new word follows from the words before it (R101). -/
theorem appendWords_getD (nk n : Nat) (hk : 1 ≤ nk) : ∀ (ws : List KeyWord), nk ≤ ws.length → ∀ {i : Nat},
    ws.length ≤ i → i < ws.length + n →
    (appendWords nk n ws).getD i zeroWord =
      xorWord ((appendWords nk n ws).getD (i - nk) zeroWord)
        (scheduleTerm nk i ((appendWords nk n ws).getD (i - 1) zeroWord)) := by
  induction n with
  | zero => intro ws _ i h1 h2; omega
  | succ n ih =>
    intro ws hw i h1 h2
    have hl := appendWord_length nk ws
    rw [appendWords]
    by_cases h : i = ws.length
    · subst h
      rw [appendWords_getD_lt nk n _ (by omega), appendWords_getD_lt nk n _ (by omega), appendWords_getD_lt nk n _ (by omega),
        appendWord_getD_length, appendWord_getD_lt nk ws (by omega), appendWord_getD_lt nk ws (by omega)]
    · exact ih (appendWord nk ws) (by omega) (by omega) (by omega)

/-- Word i of the schedule of a key. -/
def scheduleWord (nk : Nat) (key : List Byte) (i : Nat) : KeyWord := (scheduleWords nk key).getD i zeroWord

/-- The first words of the schedule are the key's. -/
theorem scheduleWord_key (nk : Nat) (key : List Byte) {i : Nat} (h : i < nk) : scheduleWord nk key i = keyWord key i := by
  rw [scheduleWord, scheduleWords, appendWords_getD_lt _ _ _ (by simpa using h)]
  simp [h]

/-- Every later word follows from words before it. -/
theorem scheduleWord_next (nk : Nat) (key : List Byte) (hk : 1 ≤ nk) {i : Nat} (h1 : nk ≤ i) (h2 : i < 4 * (nk + 6 + 1)) :
    scheduleWord nk key i =
      xorWord (scheduleWord nk key (i - nk)) (scheduleTerm nk i (scheduleWord nk key (i - 1))) :=
  appendWords_getD nk _ hk _ (by simp) (by simpa using h1) (by simp; omega)

theorem keyWord_get (key : List Byte) (i j : Nat) (h : j < 4) : (keyWord key i)[j] = key.getD (4 * i + j) 0x00#8 := by
  simp [keyWord]

theorem packRoundKey_get (ws : List KeyWord) (r j : Nat) (h : j < 16) :
    (packRoundKey ws r)[j] = (ws.getD (4 * r + j / 4) zeroWord)[j % 4] := by
  simp [packRoundKey]

theorem expandKey_rounds (key : List Byte) : (expandKey key).1 = key.length / 4 + 6 := rfl

theorem expandKey_length (key : List Byte) : (expandKey key).2.length = key.length / 4 + 7 := by
  simp [expandKey]

/-- Byte j of round key r is byte j mod 4 of word 4*r + j div 4 (R102). -/
theorem expandKey_get (key : List Byte) {r : Nat} (hr : r ≤ key.length / 4 + 6) (j : Nat) (hj : j < 16) :
    ((expandKey key).2.getD r zeroBlock)[j] = (scheduleWord (key.length / 4) key (4 * r + j / 4))[j % 4] := by
  have e : (expandKey key).2.getD r zeroBlock = packRoundKey (scheduleWords (key.length / 4) key) r := by
    simp [expandKey, List.getD_eq_getElem?_getD, show r < key.length / 4 + 6 + 1 by omega]
  rw [e, packRoundKey_get]
  rfl

theorem State.key_length (s : State) (h : s.keylen.toNat ≤ 32) : s.key.length = s.keylen.toNat := by
  simp [State.key]
  omega

end Sys2Proof.Machine
end

