-- ==== Sys2Proof/Laws/PerInstr.lean ====
section
/-! SUPPORT. Per-instruction facts about the encoding: the word of each command lies in its row of the opcode map. -/

namespace Sys2Proof.Laws.EncodingRow

open Sys2Proof

/-- The command's word, under the mask of its own row of the opcode map, is that row's pattern, and its fields are legal
(30_encoding.md R66, R69). -/
def Statement (i : Instr) : Prop :=
  (∃ row ∈ opcodeMap, row.mnemonic = i.mnemonic ∧ encode i &&& row.mask = row.pattern) ∧ i.fields.legal = true

/-- The row of a command, by its place in the map. -/
theorem of_row {i : Instr} (k : Nat) (hk : k < opcodeMap.length) (hm : opcodeMap[k].mnemonic = i.mnemonic)
    (he : encode i &&& opcodeMap[k].mask = opcodeMap[k].pattern) (hl : i.fields.legal = true) : Statement i :=
  ⟨⟨opcodeMap[k], List.getElem_mem hk, hm, he⟩, hl⟩

theorem expand : Statement .expand := of_row 0 (by decide) rfl (by decide) (by decide)

theorem encb : Statement .encb := of_row 1 (by decide) rfl (by decide) (by decide)

theorem decb : Statement .decb := of_row 2 (by decide) rfl (by decide) (by decide)

theorem encEcb (nopad ivs : Bool) : Statement (.encEcb nopad ivs) := by
  cases nopad <;> cases ivs <;> exact of_row 3 (by decide) rfl (by decide) (by decide)

theorem decEcb (nopad ivs : Bool) : Statement (.decEcb nopad ivs) := by
  cases nopad <;> cases ivs <;> exact of_row 4 (by decide) rfl (by decide) (by decide)

theorem encCbc (nopad ivs : Bool) : Statement (.encCbc nopad ivs) := by
  cases nopad <;> cases ivs <;> exact of_row 5 (by decide) rfl (by decide) (by decide)

theorem decCbc (nopad ivs : Bool) : Statement (.decCbc nopad ivs) := by
  cases nopad <;> cases ivs <;> exact of_row 6 (by decide) rfl (by decide) (by decide)

theorem encCfb (nopad ivs : Bool) : Statement (.encCfb nopad ivs) := by
  cases nopad <;> cases ivs <;> exact of_row 7 (by decide) rfl (by decide) (by decide)

theorem decCfb (nopad ivs : Bool) : Statement (.decCfb nopad ivs) := by
  cases nopad <;> cases ivs <;> exact of_row 8 (by decide) rfl (by decide) (by decide)

theorem encOfb (nopad ivs : Bool) : Statement (.encOfb nopad ivs) := by
  cases nopad <;> cases ivs <;> exact of_row 9 (by decide) rfl (by decide) (by decide)

theorem decOfb (nopad ivs : Bool) : Statement (.decOfb nopad ivs) := by
  cases nopad <;> cases ivs <;> exact of_row 10 (by decide) rfl (by decide) (by decide)

theorem encCtr (nopad ivs : Bool) : Statement (.encCtr nopad ivs) := by
  cases nopad <;> cases ivs <;> exact of_row 11 (by decide) rfl (by decide) (by decide)

theorem decCtr (nopad ivs : Bool) : Statement (.decCtr nopad ivs) := by
  cases nopad <;> cases ivs <;> exact of_row 12 (by decide) rfl (by decide) (by decide)

theorem pad (bs : BitVec 8) : Statement (.pad bs) :=
  of_row 13 (by decide) rfl (by revert bs; decide +kernel) (by revert bs; decide +kernel)

theorem unpad (bs : BitVec 8) : Statement (.unpad bs) :=
  of_row 14 (by decide) rfl (by revert bs; decide +kernel) (by revert bs; decide +kernel)

end Sys2Proof.Laws.EncodingRow
end

