-- ==== Sys2Proof/Tests/Slice0.lean ====
section
/-! SUPPORT. The model's own tests: the ill-formed words, decoding from words written out, vectors of
spec/95_test_vectors.md, and one witness for each statement that has hypotheses. -/

namespace Sys2Proof.Tests

open Sys2Proof Sys2Proof.Machine

-- One theorem at a time: the kernel evaluations of many waiting theorems together would exceed the memory limit.
set_option Elab.async false

/-! Helpers. -/

/-- The block written as one hexadecimal number, byte 0 first. -/
def blk (n : BitVec 128) : Block := Vector.ofFn fun i => n.extractLsb' (8 * (15 - i.val)) 8

/-- The first n bytes of that block. -/
def hex (n : Nat) (v : BitVec 128) : List Byte := (blk v).toList.take n

/-- The reset state with an input in DIN. -/
def withInput (d : List Byte) : State :=
  { State.reset with din := cellsFrom 0 d, dlen := BitVec.ofNat 32 d.length }

/-- A state with a one-round schedule of zeros, so that E is SubBytes then ShiftRows (R128 with Nr = 1) and can be
worked out by hand from the tables, an IV and an input. -/
def oneRound (iv : Block) (d : List Byte) : State :=
  { withInput d with ksv := true, nr := 1, ivbuf := iv, ivlen := 16 }

/-- The schedule of K128 (95_test_vectors.md section 3.1). -/
def k128 (d : List Byte) : State :=
  { withInput d with
    ksv := true
    nr := 10
    rk := #v[blk 0x2b7e151628aed2a6abf7158809cf4f3c, blk 0xa0fafe1788542cb123a339392a6c7605,
      blk 0xf2c295f27a96b9435935807a7359f67f, blk 0x3d80477d4716fe3e1e237e446d7a883b,
      blk 0xef44a541a8525b7fb671253bdb0bad00, blk 0xd4d1c6f87c839d87caf2b8bc11f915bc,
      blk 0x6d88a37a110b3efddbf98641ca0093fd, blk 0x4e54f70e5f5fc9f384a64fb24ea6dc4f,
      blk 0xead27321b58dbad2312bf5607f8d292f, blk 0xac7766f319fadc2128d12941575c006e,
      blk 0xd014f9a8c9ee2589e13f0cc8b6630ca6, zeroBlock, zeroBlock, zeroBlock, zeroBlock] }

/-- The state a command leaves. -/
def after (i : Instr) (s : State) : State :=
  match exec i s with
  | .next t => t
  | .fault _ => s
  | .refused _ => s

/-- The state a step leaves, if it answers one. -/
def stepped (s : State) : Option State :=
  match step s with
  | .next t => some t
  | .fault _ => none
  | .refused _ => none

theorem exec_after (i : Instr) (s : State) : exec i s = .next (after i s) := by
  unfold after
  rw [exec_eq]
  cases commandResult i s <;> rfl

def iv0 : Block := blk 0x000102030405060708090a0b0c0d0e0f

/-! An ill-formed word for each check (30_encoding.md R66), refused. -/

theorem test_reserved_bits_refused : ({ plainFields 1 with reservedLow := 1 } : FormatC).legal = false ∧
    ({ plainFields 1 with reservedHigh := 0x80 } : FormatC).reservedSet = true := by decide

theorem test_reserved_operation_refused : (plainFields 0).legal = false ∧ (plainFields 8).opReserved = true ∧
    (plainFields 15).legal = false := by decide

theorem test_reserved_mode_refused : (modeFields 4 5 false false).legal = false ∧
    (modeFields 5 7 false false).modeReserved = true := by decide

theorem test_mode_out_of_place_refused : (modeFields 1 1 false false).legal = false ∧
    (modeFields 6 4 false false).modeOutOfPlace = true := by decide

theorem test_option_out_of_place_refused : (modeFields 1 0 true false).legal = false ∧
    (modeFields 7 0 false true).optionOutOfPlace = true := by decide

theorem test_block_size_out_of_place_refused : (padFields 4 16).legal = false ∧
    (padFields 1 1).blockSizeOutOfPlace = true := by decide

theorem test_assembler_refuses_dont_cares : (Instr.encEcb true true).assemblerForm = false ∧
    (Instr.encCtr true true).assemblerForm = false ∧ (Instr.encCbc true true).assemblerForm = true := by decide

/-! Decoding: words written out from 30_encoding.md R60 to R62 and R69. -/

theorem test_decode_expand : decode 0b0000_0000_0000_0000_0000_0000_0000_0001 = .ok .expand := by decide
theorem test_decode_encb : decode 0b0000_0000_0000_0000_0000_0000_0000_0010 = .ok .encb := by decide
theorem test_decode_decb : decode 0b0000_0000_0000_0000_0000_0000_0000_0011 = .ok .decb := by decide
theorem test_decode_encEcb : decode 0b0000_0000_0000_0000_0000_0000_1000_0100 = .ok (.encEcb true false) := by decide
theorem test_decode_decEcb : decode 0b0000_0000_0000_0000_0000_0001_0000_0101 = .ok (.decEcb false true) := by decide
theorem test_decode_encCbc : decode 0b0000_0000_0000_0000_0000_0001_1001_0100 = .ok (.encCbc true true) := by decide
theorem test_decode_decCbc : decode 0b0000_0000_0000_0000_0000_0000_0001_0101 = .ok (.decCbc false false) := by decide
theorem test_decode_encCfb : decode 0b0000_0000_0000_0000_0000_0001_0010_0100 = .ok (.encCfb false true) := by decide
theorem test_decode_decCfb : decode 0b0000_0000_0000_0000_0000_0000_1010_0101 = .ok (.decCfb true false) := by decide
theorem test_decode_encOfb : decode 0b0000_0000_0000_0000_0000_0001_0011_0100 = .ok (.encOfb false true) := by decide
theorem test_decode_decOfb : decode 0b0000_0000_0000_0000_0000_0000_0011_0101 = .ok (.decOfb false false) := by decide
theorem test_decode_encCtr : decode 0b0000_0000_0000_0000_0000_0001_0100_0100 = .ok (.encCtr false true) := by decide
theorem test_decode_decCtr : decode 0b0000_0000_0000_0000_0000_0001_1100_0101 = .ok (.decCtr true true) := by decide
theorem test_decode_pad : decode 0b0000_0000_1111_1111_0000_0000_0000_0110 = .ok (.pad 255) := by decide
theorem test_decode_unpad : decode 0b0000_0000_0000_1000_0000_0000_0000_0111 = .ok (.unpad 8) := by decide

/-- The illegal words of 95_test_vectors.md section 7.2. -/
theorem test_illegal_words : ([0x00000000, 0x00000008, 0x0000000F, 0x00000054, 0x00000065, 0x00000074, 0x00000011,
    0x00000012, 0x00000046, 0x00000081, 0x00000102, 0x00000187, 0x00100001, 0x00100004, 0x00010003, 0x00000204,
    0x00008004, 0x01000004, 0x80000001, 0xFFFFFFFF, 0x00000009] : List Word32).all (fun c => !(decode c).isOk) = true := by
  decide +kernel

theorem test_encode_words : encode (.encCbc false true) = 0x00000114 ∧ encode (.decCtr false true) = 0x00000145 ∧
    encode (.pad 16) = 0x00100006 := by decide

theorem test_table_word : decodeTableWord 32 0x000000A4 = some (.encCfb true false) ∧
    decodeTableWord 32 0x00000064 = none := by decide

/-- The placed word is the first command after reset: EXPAND with KEYLEN 0 raises InvalidKeySize (H16). -/
theorem test_placed_word_runs : (stepped (State.reset.withFetchWord 32 0x00000001)).map (fun t => (t.err, t.pending)) =
    some (1, []) := by decide +kernel

/-! Field and tables: 95_test_vectors.md section 2. -/

theorem test_xtime : xtime 0x57 = 0xae ∧ xtime 0x80 = 0x1b ∧ xtime 0xff = 0xe5 := by decide +kernel
theorem test_gmul : gmul 0x57 0x83 = 0xc1 ∧ gmul 0x57 0x13 = 0xfe ∧ gmul 0xff 0xff = 0x13 := by decide +kernel
theorem test_ginv : ginv 0x00 = 0x00 ∧ ginv 0x53 = 0xca ∧ ginv 0xff = 0x1c := by decide +kernel
theorem test_sbox : sbox 0x00 = 0x63 ∧ sbox 0x53 = 0xed ∧ sbox 0x10 = 0xca ∧ sbox 0xff = 0x16 := by decide +kernel
theorem test_invSbox : invSbox 0x00 = 0x52 ∧ invSbox 0xed = 0x53 ∧ invSbox 0xff = 0x7d := by decide +kernel
theorem test_rcon : rcon 1 = 0x01 ∧ rcon 8 = 0x80 ∧ rcon 10 = 0x36 := by decide +kernel

/-! Steps of the block transform: section 4.2. -/

theorem test_subBytes : subBytes iv0 = blk 0x637c777bf26b6fc53001672bfed7ab76 := by decide +kernel
theorem test_invSubBytes : invSubBytes iv0 = blk 0x52096ad53036a538bf40a39e81f3d7fb := by decide +kernel
theorem test_shiftRows : shiftRows iv0 = blk 0x00050a0f04090e03080d02070c01060b := by decide +kernel
theorem test_invShiftRows : invShiftRows iv0 = blk 0x000d0a0704010e0b0805020f0c090603 := by decide +kernel
theorem test_mixColumns : mixColumns (blk 0xd4bf5d30e0b452aeb84111f11e2798e5) = blk 0x046681e5e0cb199a48f8d37a2806264c := by
  decide +kernel
theorem test_invMixColumns : invMixColumns iv0 = blk 0x0a0f080d0e0b0c090207000506030401 := by decide +kernel

/-! The block loop of each mode on the intermediates of section 5.1: E is given by its values there. -/

def pt1 : List Byte := hex 16 0x6bc1bee22e409f96e93d7e117393172a
def pt2 : List Byte := hex 16 0xae2d8a571e03ac9c9eb76fac45af8e51

/-- E under K128 on the inputs of section 5.1. -/
def e51 (b : Block) : Block :=
  if b = blk 0x6bc0bce12a459991e134741a7f9e1925 then blk 0x7649abac8119b246cee98e9b12e9197d
  else if b = blk 0xd86421fb9f1a1eda505ee1375746972c then blk 0x5086cb9b507219ee95db113a917678b2
  else if b = iv0 then blk 0x50fe67cc996d32b6da0937e99bafec60
  else if b = blk 0x3b3fd92eb72dad20333449f8e83cfb4a then blk 0x668bcf60beb005a35354a201dab36bda
  else if b = blk 0x50fe67cc996d32b6da0937e99bafec60 then blk 0xd9a4dada0892239f6b8b3d7680e15674
  else if b = blk 0xf0f1f2f3f4f5f6f7f8f9fafbfcfdfeff then blk 0xec8cdf7398607cb0f2d21675ea9ea1e4
  else if b = blk 0xf0f1f2f3f4f5f6f7f8f9fafbfcfdff00 then blk 0x362b7c3c6773516318a077d7fc5073ae
  else zeroBlock

theorem test_cbc_loop : runBlocks (cbcEncTurn e51) iv0 (pt1 ++ pt2) =
    hex 16 0x7649abac8119b246cee98e9b12e9197d ++ hex 16 0x5086cb9b507219ee95db113a917678b2 := by decide +kernel

theorem test_cfb_loop : runBlocks (cfbEncTurn e51) iv0 (pt1 ++ pt2.take 4) =
    hex 16 0x3b3fd92eb72dad20333449f8e83cfb4a ++ hex 4 0xc8a64537000000000000000000000000 ∧
    runBlocks (cfbDecTurn e51) iv0 (hex 16 0x3b3fd92eb72dad20333449f8e83cfb4a ++
      hex 16 0xc8a64537a0b3a93fcde3cdad9f1ce58b) = pt1 ++ pt2 := by decide +kernel

theorem test_ofb_loop : runBlocks (ofbTurn e51) iv0 (pt1 ++ pt2) =
    hex 16 0x3b3fd92eb72dad20333449f8e83cfb4a ++ hex 16 0x7789508d16918f03f53c52dac54ed825 := by decide +kernel

theorem test_ctr_loop : runBlocks (ctrTurn e51) (blk 0xf0f1f2f3f4f5f6f7f8f9fafbfcfdfeff) (pt1 ++ pt2) =
    hex 16 0x874d6191b620e3261bef6864990db6ce ++ hex 16 0x9806f66b7970fdff8617187bb9fffdff := by decide +kernel

/-- Section 5.6. -/
theorem test_inc128 : inc128 (blk 0x0000000000000000000000000000ffff) = blk 0x00000000000000000000000000010000 ∧
    inc128 (blk 0x7fffffffffffffffffffffffffffffff) = blk 0x80000000000000000000000000000000 ∧
    inc128 (blk 0xffffffffffffffffffffffffffffffff) = zeroBlock := by decide +kernel

/-! Each mode command on a one-round schedule of zeros, worked out by hand from R88, R124 and R128: E(IV0) is
`636b6776f201ab7b30d777c5fe7c6f2b`, and byte 0 of E(b) is SBOX of byte 0 of b. -/

def eIv0 : BitVec 128 := 0x636b6776f201ab7b30d777c5fe7c6f2b

theorem test_decb : (after .decb (oneRound iv0 (hex 16 eIv0))).output = iv0.toList := by decide +kernel

theorem test_encEcb : (after (.encEcb true false) (oneRound iv0 iv0.toList)).output = hex 16 eIv0 ∧
    (after (.encEcb false false) (oneRound iv0 [])).output = hex 16 0x636363ca636363636363636363636363 := by
  decide +kernel
theorem test_decEcb : (after (.decEcb true false) (oneRound iv0 (hex 16 eIv0))).output = iv0.toList ∧
    (after (.decEcb false false) (oneRound iv0 (hex 16 0x636363ca636363636363636363636363))).statusWord = 0x00000110 := by
  decide +kernel
theorem test_encCbc : (after (.encCbc true true) (oneRound iv0 (zeros 32))).output.take 17 = hex 16 eIv0 ++ [0xfb] := by
  decide +kernel
theorem test_decCbc : (after (.decCbc true true) (oneRound iv0 (hex 16 eIv0 ++ hex 16 eIv0))).output =
    zeros 16 ++ (xorBlock iv0 (blk eIv0)).toList := by decide +kernel
theorem test_encCfb : (after (.encCfb false true) (oneRound iv0 (1 :: zeros 16))).output =
    hex 16 0x626b6776f201ab7b30d777c5fe7c6f2b ++ [0xaa] := by decide +kernel
theorem test_decCfb : (after (.decCfb false true) (oneRound iv0 (1 :: zeros 16))).output =
    hex 16 0x626b6776f201ab7b30d777c5fe7c6f2b ++ [0x7c] := by decide +kernel
theorem test_encOfb : (after (.encOfb false true) (oneRound iv0 (1 :: zeros 16))).output =
    hex 16 0x626b6776f201ab7b30d777c5fe7c6f2b ++ [0xfb] := by decide +kernel
theorem test_decOfb : (after (.decOfb false false) (oneRound iv0 [0x6b])).output = [0x08] := by decide +kernel
theorem test_encCtr : (after (.encCtr false true) (oneRound iv0 (1 :: zeros 16))).output =
    hex 16 0x626b6776f201ab7b30d777c5fe7c6f2b ++ [0x63] := by decide +kernel
theorem test_decCtr : (after (.decCtr false true) (oneRound (blk 0xffffffffffffffffffffffffffffffff) (zeros 17))).output =
    List.replicate 16 0x16 ++ [0x63] := by decide +kernel

/-! Padding: rows P3, P8, P9 and N1, N3, N7, N11, U3, U9 of section 6. -/

theorem test_pad : (after (.pad 0) (withInput (hex 15 0xa1a2a3a4a5a6a7a8a9aaabacadaeaf00))).output =
    hex 16 0xa1a2a3a4a5a6a7a8a9aaabacadaeaf01 ∧
    (after (.pad 8) (withInput (hex 3 0xa1a2a300000000000000000000000000))).output =
      hex 8 0xa1a2a300000000050000000000000000 := by decide +kernel

theorem test_pad_full_block : (after (.pad 8) (withInput (hex 8 0xa1a2a3a4a5a6a7a80000000000000000))).output =
    hex 16 0xa1a2a3a4a5a6a7a80000000000000008 := by decide +kernel

theorem test_unpad : (after (.unpad 0) (withInput (hex 16 0xa1a2a3a4a5a6a7a8a9aaabacad000003))).output =
    hex 13 0xa1a2a3a4a5a6a7a8a9aaabacad000003 ∧
    (after (.unpad 0) (withInput (hex 16 0xa1a2a3a4a5a6a7000000000000000009))).olen = 7 := by decide +kernel

theorem test_unpad_rejects : ∀ d ∈ [zeros 16, hex 15 0xa1a2a3a4a5a6a7a8a9aaabacadae0100,
    hex 16 0xa1a2a3a4a5a6a7a8a9aaabacad030303, hex 16 0xa1a2a3a4a5a6a7a8a9aaabacadaeaf11],
    (after (.unpad 0) (withInput d)).fails .invalidPadding = true := by decide +kernel

/-! Errors and their order: rows F4, F9, F14, F18, F20, F23, F30 of section 7.1, Q1 to Q3 of section 7.3. -/

theorem test_error_kinds :
    (after (.encCbc false true) { k128 pt1 with ivlen := 15 }).statusWord = 0x00000A12 ∧
    (after .encb (k128 (pt1.take 15))).statusWord = 0x00000A12 ∧
    (after (.decEcb false false) (k128 (pt1 ++ [0]))).statusWord = 0x00000A13 ∧
    (after (.decEcb false false) (k128 [])).statusWord = 0x00000A14 ∧
    (after .encb (withInput pt1)).statusWord = 0x00000006 := by decide +kernel

/-- Row F30, whatever DCAP is. -/
theorem test_overlong_input : (after (.pad 0) { State.reset with dlen := 0xFFFFFFFF }).err = 5 := by
  have h := Config.dcap_bounds.2
  have e : padOperand { State.reset with dlen := 0xFFFFFFFF } = .error .illegalCommand := by
    rw [padOperand_eq]
    simp [inputCheck, show Config.dcap < 4294967295 by omega]
  simp only [after, exec, execPad, e]
  rfl

theorem test_error_order :
    (after (.encCbc true true) { withInput (zeros 17) with ivlen := 15 }).err = 6 ∧
    (after (.encCbc true true) { k128 (zeros 17) with ivlen := 15 }).err = 2 ∧
    (after (.encCbc true true) { k128 (zeros 17) with ivlen := 16 }).err = 3 := by decide +kernel

/-! Host accesses: rows H4, H6, H9, H13 and H14 of section 8. -/

theorem test_host_registers :
    (stepped { State.reset with pending := [.write32 0x04 0xFFFFFFFF] }) = some State.reset ∧
    ((stepped { State.reset with pending := [.write32 0x08 0xFFFFFF10] }).bind fun t => t.read32 0x08) = some 0x10 := by
  decide +kernel

theorem test_host_bytes :
    (stepped { k128 [] with pending := [.write8 0x200 0xFF] }) = some (k128 []) ∧ (k128 []).read8 0x2A5 = some 0xee ∧
    ((stepped { State.reset with pending := [.write8 0x40000005 0x77] }).map fun t => t.din) = some [(5, 0x77)] := by
  decide +kernel

theorem test_not_transactions : ∀ x ∈ [HostTxn.read32 0x18, .read8 0x00, .read32 0x100, .read8 0x130, .read8 0x2F0,
    .read32 0x02, .otherWidth 16 0x00], stepped { State.reset with pending := [x] } = none := by decide +kernel

/-- Row H12: reset after a key. -/
theorem test_reset_event : (stepped { k128 [] with pending := [.reset] }).map (fun t => (t.statusWord, t.rk[10], t.resets)) =
    some (0, zeroBlock, 1) := by decide +kernel

/-! Writing a buffer keeps the canonical form. -/

theorem test_memory_write : Memory.write [(1, 0x11), (4, 0x44)] 2 [0x22, 0x33] = [(1, 0x11), (2, 0x22), (3, 0x33), (4, 0x44)] ∧
    Memory.write [(1, 0x11), (4, 0x44)] 1 [0x55] = [(1, 0x55), (4, 0x44)] := by decide +kernel

/-! Witnesses: for each statement with hypotheses, states and operands that meet all of them, at the ends of their ranges.
The name is the statement's. -/

theorem dcap_ge (d : List Byte) (h : d.length ≤ 64) : (withInput d).dlen.toNat ≤ Config.dcap := by
  have := Config.dcap_bounds.1
  simp only [withInput, BitVec.toNat_ofNat]
  omega

theorem oneRound_ready (iv : Block) (d : List Byte) (h : d.length ≤ 64) (ivs : Bool) : (oneRound iv d).modeReady ivs :=
  ⟨rfl, dcap_ge d h, fun _ => rfl⟩

theorem witness_DecodeAndEncodeAgree : decode 0x000001C5 = .ok (.decCtr true true) := by decide

/-- One word for each clause, at the end of its range, and a legal word. -/
theorem witness_IllegalWordsRaiseIllegalCommand :
    (0x00000200 / 512 % 128 ≠ 0 ∧ 0x01000000 / 16777216 ≠ 0) ∧ (0x00000008 % 16 = 8 ∧ 0x0000000F % 16 = 15) ∧
    (0x00000054 % 16 = 4 ∧ 0x00000054 / 16 % 8 = 5) ∧ (0x00000075 % 16 = 5 ∧ 0x00000075 / 16 % 8 = 7) ∧
    0x00000011 / 16 % 8 = 1 ∧ 0x00000081 / 128 % 2 = 1 ∧ 0x00000107 / 256 % 2 = 1 ∧ 0x00010005 / 65536 % 256 = 1 ∧
    (decode 0x00000044).isOk = true ∧
    ({ State.reset with pending := [.write32 0 0x00000054] }).pending = .write32 0 0x00000054 :: [] := by decide +kernel

theorem witness_StepRunsTheDecodedCommand :
    (withInput [] |>.withCommand 0x00000006).pending = .write32 0 0x00000006 :: [] ∧
    decode 0x00000006 = .ok (.pad 0) ∧ exec (.pad 0) (withInput []) = .next (after (.pad 0) (withInput [])) ∧
    State.reset.pending = [] := ⟨rfl, by decide, exec_after _ _, rfl⟩

theorem witness_PlacedWordRunsItsCommand :
    32 ≤ 32 ∧ decodeTableWord 32 0x000001C5 = some (.decCtr true true) ∧ decodeTableWord 8 0x000000A4 = some (.encCfb true false) := by
  decide

theorem witness_FieldMultiplicationLaws : (0x01 : Byte) ≠ 0x00 ∧ (0xff : Byte) ≠ 0x00 ∧ gmul 0x53 0xca = 0x01 := by
  decide +kernel

theorem witness_TablesFollowTheirRules : (1 ≤ 1 ∧ 1 < 10) ∧ 1 ≤ 9 ∧ 9 < 10 := by decide

theorem witness_ExpandFollowsTheRecurrence :
    ((zeros 16).length = 16 ∧ 3 < 4 ∧ 4 ≤ 4 ∧ 43 < 4 * (10 + 1)) ∧ ((zeros 24).length = 24 ∧ 5 < 6 ∧ 51 < 4 * (12 + 1)) ∧
    (zeros 32).length = 32 ∧ 7 < 8 ∧ 59 < 4 * (14 + 1) := by decide +kernel

theorem witness_KeyBytesStartTheSchedule : (zeros 24).length = 24 ∧ 0 < (zeros 24).length ∧ 23 < (zeros 24).length ∧
    31 < (zeros 32).length := by decide +kernel

theorem witness_ExpandStoresTheSchedule :
    ({ State.reset with keylen := 32 }).keylen = 32 ∧
    ¬(({ State.reset with keylen := 33 }).keylen = 16 ∨ ({ State.reset with keylen := 33 }).keylen = 24 ∨
      ({ State.reset with keylen := 33 }).keylen = 32) := by decide

/-- EXPAND changes the schedule, and so does a reset event after it. -/
theorem witness_OnlyExpandAndResetChangeTheSchedule :
    let s := { State.reset with keylen := 16, pending := [.write32 0 0x00000001] }
    (stepped s).map (fun t => t.ksv) = some true ∧ s.ksv = false ∧
    (stepped { k128 [] with pending := [.reset] }).map (fun t => t.ksv) = some false ∧ (k128 []).ksv = true := by
  decide +kernel

theorem witness_BlockCommandsComplete : (k128 pt1).ksv = true ∧ (k128 pt1).dlen = 16 := by decide +kernel

theorem witness_BlockCommandsAreOneBlockEcb : (withInput pt1).dlen = 16 ∧ (k128 pt1).dlen = 16 := by decide +kernel

theorem witness_EncEcbCompletes :
    (oneRound iv0 pt1).ksv = true ∧ (oneRound iv0 pt1).dlen.toNat ≤ Config.dcap ∧ (oneRound iv0 pt1).dlen.toNat % 16 = 0 ∧
    0 < (padBytes (oneRound iv0 [1]).input 16).length / 16 ∧ (oneRound iv0 [1]).dlen.toNat ≤ Config.dcap :=
  ⟨rfl, dcap_ge pt1 (by decide), by decide +kernel, by decide +kernel, dcap_ge [1] (by decide)⟩

/-- A whole block of padding: D of the one input block is the padding of the empty sequence. -/
theorem witness_DecEcbCompletes :
    let s := oneRound iv0 (hex 16 0x636363ca636363636363636363636363)
    let p := padBytes [] 16
    s.ksv = true ∧ s.dlen.toNat ≤ Config.dcap ∧ s.dlen.toNat % 16 = 0 ∧ p.length = s.dlen.toNat ∧
    (∀ i < p.length / 16, blockAt p i = (s.decryptBlock (blockOf (blockAt s.input i))).toList) ∧
    unpadBytes p 16 = .ok [] :=
  ⟨rfl, dcap_ge _ (by decide), by decide +kernel, by decide +kernel, by decide +kernel, by decide +kernel⟩

theorem witness_EncCbcCompletes :
    (oneRound iv0 (pt1 ++ pt2)).modeReady true ∧ (oneRound iv0 (pt1 ++ pt2)).dlen.toNat % 16 = 0 ∧
    1 < (oneRound iv0 (pt1 ++ pt2)).input.length / 16 ∧ { oneRound iv0 [] with ivlen := 15 }.modeReady false :=
  ⟨oneRound_ready _ _ (by decide) _, by decide +kernel, by decide +kernel, rfl, dcap_ge [] (by decide), by decide⟩

/-- Two blocks without padding, so that both the IV and a ciphertext block are XORed. -/
theorem witness_DecCbcCompletes :
    let s := oneRound iv0 (hex 16 eIv0 ++ hex 16 eIv0)
    let p := zeros 16 ++ (xorBlock iv0 (blk eIv0)).toList
    s.modeReady true ∧ s.dlen.toNat % 16 = 0 ∧ p.length = s.dlen.toNat ∧
    ∀ i < p.length / 16,
      let prev := if i = 0 then s.initialChain true else blockOf (blockAt s.input (i - 1))
      blockAt p i = (xorBlock (s.decryptBlock (blockOf (blockAt s.input i))) prev).toList :=
  ⟨oneRound_ready _ _ (by decide) _, by decide +kernel, by decide +kernel, by decide +kernel⟩

/-- For EncCfbCompletes, DecCfbCompletes, OfbCompletes and CtrCompletes: a short last block, with an IV and without. -/
theorem witness_stream_modes_complete :
    (oneRound iv0 (zeros 17)).modeReady true ∧ { oneRound iv0 (zeros 17) with ivlen := 0 }.modeReady false ∧
    16 < (oneRound iv0 (zeros 17)).dlen.toNat ∧
    Instr.decOfb true true ∈ [Instr.encOfb true true, Instr.decOfb true true] ∧
    Instr.encCtr false true ∈ [Instr.encCtr false true, Instr.decCtr false true] :=
  ⟨oneRound_ready _ _ (by decide) _, ⟨rfl, dcap_ge (zeros 17) (by decide), by decide⟩, by decide +kernel, by decide, by decide⟩

theorem witness_CounterIncrementIsPlusOne : counterValue (blk 0x0000000000000000000000000000ffff) =
    counterValue (blockOf (hex 16 0x0000000000000000000000000000ffff)) := by decide +kernel

theorem witness_DefaultsEqualTheirValues :
    (oneRound zeroBlock pt1).ivlen = 16 ∧ (oneRound zeroBlock pt1).ivbuf = zeroBlock := ⟨rfl, rfl⟩

/-- What DecryptionUndoesEncryption asks of a first command, its state and the state of the second command. -/
def FeedsSecond (first : Instr) (s u : State) : Prop :=
  ∃ t, exec first s = .next t ∧ t.err = 0 ∧ sameSchedule u t ∧ u.ivbuf = t.ivbuf ∧ u.ivlen = t.ivlen ∧
    u.dlen = t.olen ∧ u.dlen.toNat ≤ Config.dcap ∧ u.input = t.output

/-- The second command's state: the output of the first command on the input d, as its input. -/
def fed (first : Instr) (d : List Byte) : State := oneRound iv0 (after first (oneRound iv0 d)).output

theorem feedsSecond_fed {first : Instr} {d : List Byte}
    (h : (after first (oneRound iv0 d)).err = 0 ∧ (after first (oneRound iv0 d)).output.length ≤ 64 ∧
      (fed first d).rk = (after first (oneRound iv0 d)).rk ∧ (fed first d).nr = (after first (oneRound iv0 d)).nr ∧
      (fed first d).ksv = (after first (oneRound iv0 d)).ksv ∧
      (fed first d).ivbuf = (after first (oneRound iv0 d)).ivbuf ∧
      (fed first d).ivlen = (after first (oneRound iv0 d)).ivlen ∧
      (fed first d).dlen = (after first (oneRound iv0 d)).olen ∧
      (fed first d).input = (after first (oneRound iv0 d)).output) : FeedsSecond first (oneRound iv0 d) (fed first d) :=
  ⟨_, exec_after _ _, h.1, ⟨h.2.2.1, h.2.2.2.1, h.2.2.2.2.1⟩, h.2.2.2.2.2.1, h.2.2.2.2.2.2.1, h.2.2.2.2.2.2.2.1,
    dcap_ge _ h.2.1, h.2.2.2.2.2.2.2.2⟩

/-- A block through ENCB, one byte through padded ENC.CBC, seventeen through ENC.CFB and ENC.CTR, two through PAD. -/
theorem witness_DecryptionUndoesEncryption :
    (inverseCommand .encb = some .decb ∧ FeedsSecond .encb (oneRound iv0 pt1) (fed .encb pt1)) ∧
    (inverseCommand (.encCbc false true) = some (.decCbc false true) ∧
      FeedsSecond (.encCbc false true) (oneRound iv0 [1]) (fed (.encCbc false true) [1])) ∧
    (inverseCommand (.encCfb false true) = some (.decCfb false true) ∧
      FeedsSecond (.encCfb false true) (oneRound iv0 (zeros 17)) (fed (.encCfb false true) (zeros 17))) ∧
    (inverseCommand (.encCtr false true) = some (.decCtr false true) ∧
      FeedsSecond (.encCtr false true) (oneRound iv0 (1 :: zeros 16)) (fed (.encCtr false true) (1 :: zeros 16))) ∧
    inverseCommand (.pad 3) = some (.unpad 3) ∧ FeedsSecond (.pad 3) (oneRound iv0 [7, 0]) (fed (.pad 3) [7, 0]) :=
  ⟨⟨rfl, feedsSecond_fed (by decide +kernel)⟩, ⟨rfl, feedsSecond_fed (by decide +kernel)⟩,
    ⟨rfl, feedsSecond_fed (by decide +kernel)⟩, ⟨rfl, feedsSecond_fed (by decide +kernel)⟩,
    rfl, feedsSecond_fed (by decide +kernel)⟩

/-- A block through DECB, one validly padded block through DEC.ECB, seventeen bytes through DEC.OFB, two through UNPAD. -/
theorem witness_EncryptionUndoesDecryption :
    (inverseCommand .encb = some .decb ∧ FeedsSecond .decb (oneRound iv0 pt1) (fed .decb pt1)) ∧
    (inverseCommand (.encEcb false false) = some (.decEcb false false) ∧
      FeedsSecond (.decEcb false false) (oneRound iv0 (hex 16 0x636363ca636363636363636363636363))
        (fed (.decEcb false false) (hex 16 0x636363ca636363636363636363636363))) ∧
    (inverseCommand (.encOfb true true) = some (.decOfb true true) ∧
      FeedsSecond (.decOfb true true) (oneRound iv0 (zeros 17)) (fed (.decOfb true true) (zeros 17))) ∧
    inverseCommand (.pad 1) = some (.unpad 1) ∧ FeedsSecond (.unpad 1) (oneRound iv0 [7, 1]) (fed (.unpad 1) [7, 1]) :=
  ⟨⟨rfl, feedsSecond_fed (by decide +kernel)⟩, ⟨rfl, feedsSecond_fed (by decide +kernel)⟩,
    ⟨rfl, feedsSecond_fed (by decide +kernel)⟩, rfl, feedsSecond_fed (by decide +kernel)⟩

/-- Every command that writes output succeeds somewhere, on one block or less. -/
theorem witness_OutputLengths :
    (∀ i ∈ [Instr.encb, .encEcb true false, .encCbc true true, .decEcb true true, .decCbc true false, .encCfb true true,
      .decCfb false false, .encOfb true true, .decOfb false true, .encCtr false true, .decCtr true false, .pad 0],
      (after i (oneRound iv0 iv0.toList)).err = 0) ∧
    (after .decb (oneRound iv0 (hex 16 eIv0))).err = 0 ∧ (after .expand { State.reset with keylen := 16 }).err = 0 ∧
    (after (.decEcb false false) (oneRound iv0 (hex 16 0x636363ca636363636363636363636363))).err = 0 ∧
    (after (.decCbc false false) (oneRound iv0 (hex 16 0x636363ca636363636363636363636363))).err = 0 ∧
    (after (.unpad 1) (withInput [7, 1])).err = 0 := by decide +kernel

theorem witness_PadAppendsZerosAndTheCount : (1 ≤ 1 ∧ 1 ≤ 255) ∧ (1 ≤ 255 ∧ 255 ≤ 255) ∧ (0 ≤ 0 ∧ 0 < 0 + 255 - 1) ∧
    ([] : List Byte).length < 255 ∧ 255 % 255 = 0 := by decide

/-- Each reason to reject a sequence, and none. -/
theorem witness_UnpadChecksStrictly :
    ([] : List Byte).length = 0 ∧ (zeros 15).length % 16 ≠ 0 ∧ ((zeros 16).getD 15 0).toNat = 0 ∧
    16 < ((zeros 15 ++ [17]).getD 15 0).toNat ∧
    (16 - 3 ≤ 13 ∧ 13 + 2 ≤ 16 ∧ (zeros 13 ++ [3, 3, 3]).getD 13 0 ≠ 0) ∧ unpadBytes (zeros 13 ++ [0, 0, 3]) 16 = .ok (zeros 13) := by
  decide +kernel

theorem witness_PadAndUnpadAreInverse : (1 ≤ 1 ∧ 255 ≤ 255) ∧ unpadBytes [7, 1] 1 = .ok [7] := by decide +kernel

theorem witness_PaddingCommandsComplete : (withInput [7, 1]).dlen.toNat ≤ Config.dcap ∧
    unpadBytes (withInput [7, 1]).input (blockSize 1) = .ok [7] := ⟨dcap_ge _ (by decide), by decide +kernel⟩

theorem witness_FirstFailingCheckDecides :
    firstFailing (errorChecks (.encCbc true true) { k128 (zeros 17) with ivlen := 15 }) = some .invalidBlockSize ∧
    firstFailing (errorChecks (.encCbc true true) (oneRound iv0 pt1)) = none := by decide +kernel

theorem witness_FailedCommandChangesOnlyErrAndOlen : exec .expand State.reset = .next (after .expand State.reset) ∧
    (after .expand State.reset).err ≠ 0 := ⟨exec_after _ _, by decide +kernel⟩

theorem witness_EveryCommandWordHasAnOutcome : (State.reset.withCommand 0xFFFFFFFF).pending = .write32 0 0xFFFFFFFF :: [] :=
  rfl

/-- The least length that does not fit, and the greatest. -/
theorem witness_OverlongInputIsIllegal :
    Config.dcap < ({ State.reset with dlen := BitVec.ofNat 32 (Config.dcap + 1) }).dlen.toNat ∧
    Config.dcap < ({ State.reset with dlen := 0xFFFFFFFF }).dlen.toNat ∧ Instr.pad 0 ≠ .expand := by
  have := Config.dcap_bounds.2
  refine ⟨?_, ?_, by decide⟩
  · simp only [BitVec.toNat_ofNat]
    omega
  · show Config.dcap < 4294967295
    omega

theorem witness_NoKeyScheduleComesBeforeOperands :
    (∀ bs, Instr.encb ≠ .pad bs ∧ Instr.encb ≠ .unpad bs) ∧ Instr.encb ≠ .expand ∧ (withInput pt1).ksv = false ∧
    (withInput pt1).dlen.toNat ≤ Config.dcap ∧ (k128 []).ksv = true ∧
    exec (.pad 3) State.reset = .next (after (.pad 3) State.reset) :=
  ⟨fun _ => ⟨by simp, by simp⟩, by simp, rfl, dcap_ge _ (by decide), rfl, exec_after _ _⟩

/-- A command that succeeds and one that fails, for CommandsLeaveTheirOperandsUnchanged and CommandsWriteOnlyTheirOutput;
the address is the first one above the output. -/
theorem witness_command_frames :
    let s := withInput [7]
    exec (.pad 4) s = .next (after (.pad 4) s) ∧ (after (.pad 4) s).err = 0 ∧ Instr.pad 4 ≠ .expand ∧
    ¬(0x80000000 ≤ (0x80000004 : Word32).toNat ∧ (0x80000004 : Word32).toNat < 0x80000000 + (after (.pad 4) s).olen.toNat) ∧
    (after (.pad 4) s).olen.toNat ≤ 4 ∧ ¬(0x200 ≤ (0x1FF : Word32).toNat) ∧ ¬((0x2F0 : Word32).toNat ≤ 0x2EF) ∧
    (after .encb s).err ≠ 0 ∧ Instr.expand ∈ [Instr.expand, .encb, .decb] := by
  refine ⟨exec_after _ _, by decide +kernel, by simp, ?_, by decide +kernel, by decide, by decide, by decide +kernel, by decide⟩
  rw [show (after (.pad 4) (withInput [7])).olen.toNat = 4 by decide +kernel]
  decide

theorem witness_CommandWrittenTwiceEqualsOnce :
    runCommand 0x00040006 (withInput [7]) = .next (after (.pad 4) (withInput [7])) := by
  rw [runCommand, show decode 0x00040006 = .ok (.pad 4) by decide]
  exact exec_after _ _

/-- Two states that differ in KEYBUF, IVBUF and IVLEN and hold the same operands of ENC.CBC without a supplied IV. -/
theorem witness_ResultsDependOnlyOnOperands :
    let s := oneRound iv0 pt1
    let u := { oneRound zeroBlock pt1 with keybuf := Vector.replicate 32 0xff, ivlen := 3 }
    sameOperands (.encCbc false false) s u ∧ s ≠ u ∧
    exec (.encCbc false false) s = .next (after (.encCbc false false) s) ∧
    exec (.encCbc false false) u = .next (after (.encCbc false false) u) ∧
    (after (.encCbc false false) s).err = 0 ∧ sameOperands .expand (withInput [1]) (withInput [2]) :=
  ⟨⟨⟨rfl, rfl, rfl⟩, ⟨rfl, rfl⟩, nofun⟩, by decide +kernel, exec_after _ _, exec_after _ _, by decide +kernel, rfl, rfl⟩

theorem witness_AddressMapReads : 0 < Config.dcap ∧ 63 < Config.dcap ∧ Config.dcap + 254 < Config.dcap + 255 := by
  unfold Config.dcap
  omega

/-- The first and last address of each writable and read-only range whose end does not depend on DCAP, and the last of DIN. -/
theorem witness_HostByteWrites :
    (0x100 ≤ (0x100 : Word32).toNat ∧ (0x12F : Word32).toNat ≤ 0x12F) ∧
    (0x40000000 ≤ (0x40000000 : Word32).toNat ∧ (0x40000000 : Word32).toNat < 0x40000000 + Config.dcap) ∧
    (0x40000000 + BitVec.ofNat 32 (Config.dcap - 1) : Word32).toNat < 0x40000000 + Config.dcap ∧
    (0x200 ≤ (0x200 : Word32).toNat ∧ (0x2EF : Word32).toNat ≤ 0x2EF) ∧
    (0x80000000 ≤ (0x80000000 : Word32).toNat ∧ (0x80000000 : Word32).toNat < 0x80000000 + (Config.dcap + 255)) ∧
    ({ State.reset with pending := [.write8 0x100 0x5a] }).pending = .write8 0x100 0x5a :: [] := by
  have := Config.dcap_bounds
  refine ⟨by decide, ⟨by decide, ?_⟩, ?_, by decide, ⟨by decide, ?_⟩, rfl⟩
  · show 0x40000000 < 0x40000000 + Config.dcap; omega
  · rw [BitVec.toNat_add, BitVec.toNat_ofNat]
    show (0x40000000 + (Config.dcap - 1) % 2 ^ 32) % 2 ^ 32 < _
    omega
  · show 0x80000000 < 0x80000000 + (Config.dcap + 255); omega

theorem witness_HostRegisterWrites :
    ∀ a ∈ [0x08, 0x0C, 0x10, 0x04, 0x14],
      ({ State.reset with pending := [.write32 a 0xFFFFFF10] }).pending = .write32 a 0xFFFFFF10 :: [] := fun _ _ => rfl

theorem witness_HostReadsHaveNoSideEffect :
    (k128 []).read8 0x2A5 = some 0xee ∧ (k128 []).read32 0x04 = some 0x00000A10 ∧
    ({ k128 [] with pending := [.read8 0x2A5] }).pending = .read8 0x2A5 :: [] := by decide +kernel

/-- A refused access and one that is answered, at neighbouring addresses. -/
theorem witness_OnlyNonTransactionsAreRefused :
    ¬(HostTxn.read8 0x130).legal ∧ (HostTxn.read8 0x12F).legal ∧ ¬(HostTxn.read32 0x18).legal ∧
    (HostTxn.read32 0x14).legal ∧ ¬(HostTxn.otherWidth 16 0x00).legal := by
  refine ⟨?_, .inr (.inl (by decide)), by simp [HostTxn.legal, registerAddress], by simp [HostTxn.legal, registerAddress], id⟩
  simp [HostTxn.legal, byteAddress]

theorem witness_ResetClearsTheCore : ({ k128 [] with pending := [.reset] }).pending = .reset :: [] := rfl

/-- A state with a key schedule that has the invariant, about to take a step. -/
theorem witness_StepKeepsTheInvariant :
    let s := State.reset.storeSchedule (expandKey (zeros 32)).1 (expandKey (zeros 32)).2
    s.Inv ∧ s.ksv = true ∧ step s = .next s := by
  refine ⟨⟨by simp, fun _ => ⟨zeros 32, by decide, by decide +kernel, fun i => ?_⟩, fun _ => rfl, Nat.zero_le _, rfl,
    by decide, Memory.nil_wf, Memory.nil_within _, Memory.nil_wf, Memory.nil_within _⟩, rfl, rfl⟩
  have e : (State.reset.storeSchedule (expandKey (zeros 32)).1 (expandKey (zeros 32)).2).nr.toNat =
      (expandKey (zeros 32)).1 := by decide +kernel
  simp only [e, State.storeSchedule_rk, Fin.getElem_fin, Vector.getElem_ofFn]

/-- Each of the three commands, cut after its first block. -/
theorem witness_MessagesMayBeCutIntoPieces :
    ∀ p ∈ [(Instr.encCbc true true, pt2, blockOf (after (.encCbc true true) (oneRound iv0 pt1)).output), (.encCfb true true, [7],
        blockOf (after (.encCfb true true) (oneRound iv0 pt1)).output),
      (.encCtr true true, [7], blk 0x000102030405060708090a0b0c0d0e10)],
      (oneRound iv0 (pt1 ++ p.2.1)).input = (oneRound iv0 pt1).input ++ (oneRound p.2.2 p.2.1).input ∧
      (oneRound iv0 pt1).dlen.toNat % 16 = 0 ∧ 0 < (oneRound iv0 pt1).dlen.toNat ∧
      (after p.1 (oneRound iv0 (pt1 ++ p.2.1))).err = 0 ∧ (after p.1 (oneRound iv0 pt1)).err = 0 ∧
      (after p.1 (oneRound p.2.2 p.2.1)).err = 0 ∧
      (if p.1 = .encCtr true true
        then counterValue p.2.2 = (counterValue iv0 + (oneRound iv0 pt1).dlen.toNat / 16) % 2 ^ 128
        else p.2.2 = blockOf (blockAt (after p.1 (oneRound iv0 pt1)).output ((oneRound iv0 pt1).dlen.toNat / 16 - 1))) := by
  decide +kernel

/-! The key schedule: sections 3.1 to 3.3 and 3.6. -/

theorem test_expand_128 :
    (after .expand { State.reset with
      keybuf := Vector.ofFn fun i => (hex 16 0x2b7e151628aed2a6abf7158809cf4f3c).getD i.val 0x80, keylen := 16 }).rk =
      (k128 []).rk := by decide +kernel

theorem test_expand_192 :
    let t := after .expand { State.reset with
      keybuf := Vector.ofFn fun i =>
        (hex 16 0x8e73b0f7da0e6452c810f32b809079e5 ++ hex 8 0x62f8ead2522c6b7b0000000000000000).getD i.val 0x00
      keylen := 24 }
    t.nr = 12 ∧ t.rk[1] = blk 0x62f8ead2522c6b7bfe0c91f72402f5a5 ∧ t.rk[12] = blk 0xe98ba06f448c773c8ecc720401002202 ∧
      t.rk[13] = zeroBlock := by decide +kernel

theorem test_expand_256 :
    let t := after .expand { State.reset with
      keybuf := Vector.ofFn fun i =>
        (hex 16 0x603deb1015ca71be2b73aef0857d7781 ++ hex 16 0x1f352c073b6108d72d9810a30914dff4).getD i.val 0x00
      keylen := 32 }
    t.nr = 14 ∧ t.rk[3] = blk 0xa8b09c1a93d194cdbe49846eb75d5b9a ∧ t.rk[14] = blk 0xfe4890d1e6188d0b046df344706c631e := by
  decide +kernel

/-- E5: a failed EXPAND keeps the old schedule; STATUS = 0x00000A11. -/
theorem test_expand_bad_length :
    let t := after .expand { k128 [] with keylen := 3 }
    t.statusWord = 0x00000A11 ∧ t.olen = 0 ∧ t.rk = (k128 []).rk := by decide +kernel

/-! ENCB: row B1 of section 4.3. The slow tests stand last. -/

theorem test_encb : (after .encb (k128 (hex 16 0x3243f6a8885a308d313198a2e0370734))).output =
    hex 16 0x3925841d02dc09fbdc118597196a0b32 := by decide +kernel

end Sys2Proof.Tests
end

section
/-! PROOFS. Which command words are legal, and what the core answers to an illegal word or an overlong input
(spec/30_encoding.md R66 to R68): when decoding the fields of a word answers a command, the fields as numbers of the
word's bits, and the error that the first check of a command decides. -/

namespace Sys2Proof

/-! ## When decoding a record of fields answers a command -/

/-- A command without options needs MODE, NOPAD, IVS and BS zero (30_encoding.md R68, operations 1 to 3). -/
theorem exists_decodePlain_ok (f : FormatC) (i : Instr) :
    (∃ j, decodePlain f i = .ok j) ↔
      f.mode.toNat = 0 ∧ f.nopad.toNat = 0 ∧ f.ivs.toNat = 0 ∧ f.bs.toNat = 0 := by
  unfold decodePlain
  by_cases hm : f.mode.toNat = 0
  · by_cases hb : f.bs.toNat = 0 <;> cases f.nopad <;> cases f.ivs <;> simp [← BitVec.toNat_inj, hm, hb]
  · simp [← BitVec.toNat_inj, hm]

/-- ENC and DEC need BS zero and one of the five modes (R68, operations 4 and 5). -/
theorem exists_decodeMode_ok (f : FormatC) (ecb cbc cfb ofb ctr : Bool → Bool → Instr) :
    (∃ j, decodeMode f ecb cbc cfb ofb ctr = .ok j) ↔ f.bs.toNat = 0 ∧ f.mode.toNat < 5 := by
  unfold decodeMode
  by_cases hb : f.bs.toNat = 0
  · rw [if_neg (by simpa [← BitVec.toNat_inj] using hb)]
    split
    case h_6 h0 h1 h2 h3 h4 =>
      rw [imp_false] at h0 h1 h2 h3 h4
      have hmode : 5 ≤ f.mode.toNat := by omega
      simp [hmode]
    all_goals simp [*]
  · simp [← BitVec.toNat_inj, hb]

/-- PAD and UNPAD need MODE, NOPAD and IVS zero (R68, operations 6 and 7). -/
theorem exists_decodePad_ok (f : FormatC) (i : BitVec 8 → Instr) :
    (∃ j, decodePad f i = .ok j) ↔ f.mode.toNat = 0 ∧ f.nopad.toNat = 0 ∧ f.ivs.toNat = 0 := by
  unfold decodePad
  by_cases hm : f.mode.toNat = 0
  · cases f.nopad <;> cases f.ivs <;> simp [← BitVec.toNat_inj, hm]
  · simp [← BitVec.toNat_inj, hm]

namespace FormatC

variable (f : FormatC)

/-! The groups of operations and the clauses (a) to (f) of R66, each on the numbers of the fields. -/

theorem isModeCommand_iff : f.isModeCommand = true ↔ f.op.toNat = 4 ∨ f.op.toNat = 5 := by
  simp [isModeCommand, ← BitVec.toNat_inj]

theorem isPadCommand_iff : f.isPadCommand = true ↔ f.op.toNat = 6 ∨ f.op.toNat = 7 := by
  simp [isPadCommand, ← BitVec.toNat_inj]

theorem reservedSet_iff : f.reservedSet = true ↔ f.reservedLow.toNat ≠ 0 ∨ f.reservedHigh.toNat ≠ 0 := by
  simp [reservedSet, ← BitVec.toNat_inj]

theorem opReserved_iff : f.opReserved = true ↔ f.op.toNat = 0 ∨ 8 ≤ f.op.toNat := by
  simp [opReserved, ← BitVec.toNat_inj]

theorem modeReserved_iff :
    f.modeReserved = true ↔ (f.op.toNat = 4 ∨ f.op.toNat = 5) ∧ 5 ≤ f.mode.toNat := by
  simp [modeReserved, isModeCommand_iff]

theorem modeOutOfPlace_iff :
    f.modeOutOfPlace = true ↔ ¬(f.op.toNat = 4 ∨ f.op.toNat = 5) ∧ f.mode.toNat ≠ 0 := by
  simp [modeOutOfPlace, ← isModeCommand_iff, ← BitVec.toNat_inj]

theorem optionOutOfPlace_iff :
    f.optionOutOfPlace = true ↔
      ¬(f.op.toNat = 4 ∨ f.op.toNat = 5) ∧ (f.nopad.toNat ≠ 0 ∨ f.ivs.toNat ≠ 0) := by
  simp [optionOutOfPlace, ← isModeCommand_iff]

theorem blockSizeOutOfPlace_iff :
    f.blockSizeOutOfPlace = true ↔ ¬(f.op.toNat = 6 ∨ f.op.toNat = 7) ∧ f.bs.toNat ≠ 0 := by
  simp [blockSizeOutOfPlace, ← isPadCommand_iff, ← BitVec.toNat_inj]

/-- A record of fields is legal when no clause of R66 holds, the clauses in the order (a) to (f). -/
theorem legal_iff : f.legal = true ↔
    ¬((f.reservedLow.toNat ≠ 0 ∨ f.reservedHigh.toNat ≠ 0) ∨
      (f.op.toNat = 0 ∨ 8 ≤ f.op.toNat) ∨
      ((f.op.toNat = 4 ∨ f.op.toNat = 5) ∧ 5 ≤ f.mode.toNat) ∨
      (¬(f.op.toNat = 4 ∨ f.op.toNat = 5) ∧ f.mode.toNat ≠ 0) ∨
      (¬(f.op.toNat = 4 ∨ f.op.toNat = 5) ∧ (f.nopad.toNat ≠ 0 ∨ f.ivs.toNat ≠ 0)) ∨
      (¬(f.op.toNat = 6 ∨ f.op.toNat = 7) ∧ f.bs.toNat ≠ 0)) := by
  rw [← reservedSet_iff, ← opReserved_iff, ← modeReserved_iff, ← modeOutOfPlace_iff, ← optionOutOfPlace_iff,
    ← blockSizeOutOfPlace_iff, legal]
  simp only [Bool.not_eq_true', ← Bool.not_eq_true, Bool.or_eq_true, or_assoc]

end FormatC

/-- The decoder of R68 answers a command exactly when no clause of R66 holds of the fields: R66(a) rejects first, then
OP selects which of the other clauses can hold. -/
theorem exists_decodeFields_ok (f : FormatC) : (∃ i, decodeFields f = .ok i) ↔ f.legal = true := by
  unfold decodeFields
  split
  case isTrue h => simp [FormatC.legal, h]
  case isFalse h =>
    rw [f.reservedSet_iff] at h
    rw [f.legal_iff]
    split
    case h_1 | h_2 | h_3 => rw [exists_decodePlain_ok]; omega
    case h_4 | h_5 => rw [exists_decodeMode_ok]; omega
    case h_6 | h_7 => rw [exists_decodePad_ok]; omega
    case h_8 h1 h2 h3 h4 h5 h6 h7 =>
      rw [imp_false] at h1 h2 h3 h4 h5 h6 h7
      have hop : f.op.toNat = 0 ∨ 8 ≤ f.op.toNat := by omega
      simp [hop]

/-! ## The fields of a word, as numbers -/

section Fields

variable (c : Word32)

theorem splitC_op_toNat : (splitC c).op.toNat = c.toNat % 16 := by simp [splitC]

theorem splitC_mode_toNat : (splitC c).mode.toNat = c.toNat / 16 % 8 := by
  simp [splitC, Nat.shiftRight_eq_div_pow]

theorem splitC_nopad_toNat : (splitC c).nopad.toNat = c.toNat / 128 % 2 := by
  simp [splitC, BitVec.getLsbD, Nat.toNat_testBit]

theorem splitC_ivs_toNat : (splitC c).ivs.toNat = c.toNat / 256 % 2 := by
  simp [splitC, BitVec.getLsbD, Nat.toNat_testBit]

theorem splitC_reservedLow_toNat : (splitC c).reservedLow.toNat = c.toNat / 512 % 128 := by
  simp [splitC, Nat.shiftRight_eq_div_pow]

theorem splitC_bs_toNat : (splitC c).bs.toNat = c.toNat / 65536 % 256 := by
  simp [splitC, Nat.shiftRight_eq_div_pow]

theorem splitC_reservedHigh_toNat : (splitC c).reservedHigh.toNat = c.toNat / 16777216 := by
  have hlt : c.toNat / 16777216 < 256 := by omega
  simp [splitC, Nat.shiftRight_eq_div_pow, Nat.mod_eq_of_lt hlt]

end Fields

end Sys2Proof

namespace Sys2Proof.Machine

/-! ## The write of an illegal word to CMD -/

/-- A write to the address of CMD runs the word (10_state.md R12, 20_memory.md R49). -/
theorem perform_write32_cmd (c : Word32) (s : State) : perform (.write32 0 c) s = runCommand c s := rfl

/-- The step in which the host writes a word that names no command raises IllegalCommand (30_encoding.md R66). -/
theorem step_of_decode_error {s : State} {c : Word32} {rest : List HostTxn} (hp : s.pending = .write32 0 c :: rest)
    (hd : ¬∃ i, decode c = .ok i) : step s = .next ({ s with pending := rest }.raise .illegalCommand) := by
  rw [step_of_pending hp, perform_write32_cmd, runCommand]
  cases h : decode c with
  | ok i => exact absurd ⟨i, h⟩ hd
  | error _ => rfl

/-- Settles O2: a word decodes exactly when its fields are legal, the fields are the bits of the word, and a word that
does not decode raises IllegalCommand. -/
theorem illegalWordsRaiseIllegalCommand : Obligations.IllegalWordsRaiseIllegalCommand := by
  intro c op mode nopad ivs bs illegal
  have hdecode : (∃ i, decode c = .ok i) ↔ ¬illegal := by
    rw [decode, exists_decodeFields_ok, FormatC.legal_iff, splitC_op_toNat, splitC_mode_toNat, splitC_nopad_toNat,
      splitC_ivs_toNat, splitC_reservedLow_toNat, splitC_bs_toNat, splitC_reservedHigh_toNat]
  refine ⟨hdecode, fun hillegal s rest hp => ?_⟩
  exact step_of_decode_error hp fun hok => hdecode.mp hok hillegal

/-! ## An input that does not fit DIN -/

section Overlong

variable {s : State} (h : Config.dcap < s.dlen.toNat)
include h

/-- The first check of every command that reads DIN (30_encoding.md R67). -/
theorem inputCheck_of_overlong : inputCheck s = (true, .illegalCommand) := by
  simp [inputCheck, h]

theorem prologue_of_overlong (d : Dir) (m : Mode) (padf ivs : Bool) :
    prologue d m padf ivs s = .error .illegalCommand := by
  simp [prologue_eq, prologueChecks, inputCheck_of_overlong h]

theorem blockOperand_of_overlong : blockOperand s = .error .illegalCommand := by
  simp [blockOperand_eq, inputCheck_of_overlong h]

theorem padOperand_of_overlong : padOperand s = .error .illegalCommand := by
  simp [padOperand_eq, inputCheck_of_overlong h]

/-- Every command but EXPAND obtains its operands first, so their error is its error. -/
theorem commandResult_of_overlong {i : Instr} (hi : i ≠ .expand) : commandResult i s = .error .illegalCommand := by
  cases i
  case expand => exact absurd rfl hi
  case encb | decb => rw [commandResult, blockOperand_of_overlong h]; rfl
  case pad | unpad => rw [commandResult, padOperand_of_overlong h]; rfl
  all_goals rw [commandResult, prologue_of_overlong h]; rfl

end Overlong

/-- Settles O41: the operands of every command but EXPAND fail with IllegalCommand, and the command raises that error. -/
theorem overlongInputIsIllegal : Obligations.OverlongInputIsIllegal := by
  intro i s hi h
  rw [exec_eq, commandResult_of_overlong h hi]
  rfl

end Sys2Proof.Machine
end

section
/-! PROOFS. INVSBOX is the inverse permutation of SBOX (spec/40_gf256.md R87). The two tables are checked against each
other in one direction, byte by byte; the other direction follows because the bytes are finitely many. -/

namespace Sys2Proof.Machine

/-- The tables of R88 and R89, entry by entry. -/
@[simp] theorem invSbox_sbox : ∀ a : Byte, invSbox (sbox a) = a := by decide +kernel

/-- SBOX has a left inverse, so it is injective, and an injective map of a finite set to itself reaches every element. -/
theorem sbox_surjective : Function.Surjective sbox :=
  Finite.surjective_of_injective (Function.LeftInverse.injective invSbox_sbox)

@[simp] theorem sbox_invSbox (a : Byte) : sbox (invSbox a) = a :=
  Function.LeftInverse.rightInverse_of_surjective invSbox_sbox sbox_surjective a

/-- Settles O8: one direction is read off the tables, the other holds because SBOX is onto. -/
theorem inverseSboxUndoesSbox : Obligations.InverseSboxUndoesSbox :=
  fun a => ⟨invSbox_sbox a, sbox_invSbox a⟩

end Sys2Proof.Machine
end

section
/-! PROOFS. The key schedule obeys the recurrence of its words, and EXPAND stores it (spec/41_key_schedule.md R100 to
R102). -/

namespace Sys2Proof.Machine

/-- Settles O14: the words are `scheduleWord`, the key's first and each later one from the words before it (R101), and
the round keys are packed from them (R102). -/
theorem expandFollowsTheRecurrence : Obligations.ExpandFollowsTheRecurrence := by
  intro key hlen nk nr
  have hnk : 1 ≤ nk := by omega
  refine ⟨expandKey_rounds key, expandKey_length key, scheduleWord nk key, fun i hi j => ?_,
    fun i hfirst hlast => scheduleWord_next nk key hnk hfirst hlast, fun r hr j => expandKey_get key hr j j.isLt⟩
  rw [scheduleWord_key nk key hi]
  exact keyWord_get key i j j.isLt

/-! ## EXPAND -/

/-- With a legal KEYLEN the schedule of KEYBUF[0..KEYLEN) is stored (R100). -/
theorem exec_expand_of_legal {s : State} (h : s.keylen = 16 ∨ s.keylen = 24 ∨ s.keylen = 32) :
    exec .expand s = .next (s.storeSchedule (expandKey s.key).1 (expandKey s.key).2) := if_pos h

/-- With any other KEYLEN, InvalidKeySize is raised (R100). -/
theorem exec_expand_of_not_legal {s : State} (h : ¬(s.keylen = 16 ∨ s.keylen = 24 ∨ s.keylen = 32)) :
    exec .expand s = .next (s.raise .invalidKeySize) := if_neg h

/-- No legal key is longer than KEYBUF, so the number of rounds is that of KEYLEN. -/
theorem expandKey_rounds_of_legal {s : State} (h : s.keylen = 16 ∨ s.keylen = 24 ∨ s.keylen = 32) :
    (expandKey s.key).1 = s.keylen.toNat / 4 + 6 := by
  have hle : s.keylen.toNat ≤ 32 := by obtain h | h | h := h <;> simp [h]
  rw [expandKey_rounds, s.key_length hle]

/-- Settles O16: the state with the schedule stored has NR, at most 14 and so within its four bits, and RK as R100
gives them; the frame of either case is that of `State.storeSchedule` or `State.raise`. -/
theorem expandStoresTheSchedule : Obligations.ExpandStoresTheSchedule := by
  refine fun s => ⟨fun h => ⟨_, exec_expand_of_legal h, ?_, fun i => ?_, rfl⟩, exec_expand_of_not_legal⟩
  · rw [State.storeSchedule_nr, expandKey_rounds_of_legal h]
    obtain h | h | h := h <;> simp [h]
  · rw [State.storeSchedule_rk, expandKey_rounds_of_legal h, Fin.getElem_fin, Vector.getElem_ofFn]
    rfl

end Sys2Proof.Machine
end

section
/-! PROOFS. The counter increment of CTR adds 1 modulo 2^128 (spec/43_modes.md R156). A counter block is read through
its bytes in reverse order, the order in which `incBytes` carries: they are the base 256 digits of its value, the least
one first. -/

namespace Sys2Proof.Machine

/-- The number whose base 256 digits are the bytes, the least significant first. -/
def bytesValue (bs : List Byte) : Nat := Nat.ofDigits 256 (bs.map BitVec.toNat)

@[simp] theorem bytesValue_cons (b : Byte) (bs : List Byte) : bytesValue (b :: bs) = b.toNat + 256 * bytesValue bs :=
  Nat.ofDigits_cons ..

theorem lt_of_mem_map_toNat {bs : List Byte} : ∀ n ∈ bs.map BitVec.toNat, n < 256 := by
  intro n hn
  obtain ⟨b, -, rfl⟩ := List.mem_map.mp hn
  exact b.isLt

theorem bytesValue_lt (bs : List Byte) : bytesValue bs < 256 ^ bs.length := by
  simpa [bytesValue] using Nat.ofDigits_lt_base_pow_length (by decide) (lt_of_mem_map_toNat (bs := bs))

/-- Byte strings of one length are determined by their values. -/
theorem eq_of_bytesValue_eq {bs bs' : List Byte} (hlen : bs.length = bs'.length) (h : bytesValue bs = bytesValue bs') :
    bs = bs' :=
  List.map_injective_iff.mpr (fun _ _ => BitVec.eq_of_toNat_eq) <|
    Nat.ofDigits_inj_of_len_eq (by decide) (by simpa using hlen) lt_of_mem_map_toNat lt_of_mem_map_toNat h

theorem counterValue_eq_bytesValue (c : Block) : counterValue c = bytesValue c.toList.reverse := by
  rw [counterValue, bytesValue, Nat.ofDigits_eq_foldr, List.foldr_map, List.foldr_reverse]
  simp only [Nat.add_comm, Nat.cast_id]

@[simp] theorem incBytes_length (bs : List Byte) : (incBytes bs).length = bs.length := by
  induction bs with
  | nil => rfl
  | cons b bs ih =>
    rw [incBytes]
    split
    · simp [ih]
    · rfl

/-- A byte 255 turns to 0 and carries into the next byte; any other byte takes the 1 and the carry stops there. Out of
the last byte the carry is lost, so the sum is modulo 256 to the number of bytes. -/
theorem bytesValue_incBytes (bs : List Byte) :
    bytesValue (incBytes bs) = (bytesValue bs + 1) % 256 ^ bs.length := by
  induction bs with
  | nil => rfl
  | cons b bs ih =>
    rw [incBytes, List.length_cons, Nat.pow_succ']
    split
    next hcarry =>
      have hb : b.toNat = 255 := by bv_omega
      calc bytesValue (0x00#8 :: incBytes bs)
          = 256 * ((bytesValue bs + 1) % 256 ^ bs.length) := by simp [ih]
        _ = 256 * (bytesValue bs + 1) % (256 * 256 ^ bs.length) := (Nat.mul_mod_mul_left ..).symm
        _ = (bytesValue (b :: bs) + 1) % (256 * 256 ^ bs.length) := by
          rw [bytesValue_cons, hb]; congr 1; omega
    next hcarry =>
      have hb : (b + 1).toNat = b.toNat + 1 := by bv_omega
      have hbs : bytesValue bs < 256 ^ bs.length := bytesValue_lt bs
      have hfits : b.toNat + 256 * bytesValue bs + 1 < 256 * 256 ^ bs.length := by bv_omega
      rw [bytesValue_cons, bytesValue_cons, hb, Nat.mod_eq_of_lt hfits]
      omega

theorem toList_inc128 (c : Block) : (inc128 c).toList = (incBytes c.toList.reverse).reverse :=
  toList_blockOf (by simp)

/-- The increment on the value of the counter (43_modes.md R156). -/
theorem counterValue_inc128 (c : Block) : counterValue (inc128 c) = (counterValue c + 1) % 2 ^ 128 := by
  rw [counterValue_eq_bytesValue, toList_inc128, List.reverse_reverse, bytesValue_incBytes, counterValue_eq_bytesValue]
  simp

theorem counterValue_injective : Function.Injective counterValue := by
  intro c c' h
  rw [counterValue_eq_bytesValue, counterValue_eq_bytesValue] at h
  have hbytes : c.toList.reverse = c'.toList.reverse := eq_of_bytesValue_eq (by simp) h
  exact Vector.toList_inj.mp (List.reverse_injective hbytes)

/-- Settles O28: the carry through the bytes of the block is addition of 1 on its value, and a block's bytes are the
digits of its value. -/
theorem counterIncrementIsPlusOne : Obligations.CounterIncrementIsPlusOne :=
  ⟨counterValue_inc128, fun _ _ h => counterValue_injective h⟩

end Sys2Proof.Machine
end

section
/-! PROOFS. `pad` and `unpad` on the bytes of a sequence (spec/44_padding.md R190, R191): where each appended byte stands,
why the padded length is the least possible, and `unpad`'s test of the bytes before the count read index by index. -/

namespace Sys2Proof.Machine

/-! ## pad -/

theorem padBytes_take (d : List Byte) (n : Nat) : (padBytes d n).take d.length = d := by
  rw [padBytes, List.append_assoc, List.take_left]

/-- The bytes between the sequence and the count are zero, whatever the default. -/
theorem padBytes_getD_zero (d : List Byte) {n j : Nat} (b : Byte) (hd : d.length ≤ j)
    (hj : j < d.length + padCount d.length n - 1) : (padBytes d n).getD j b = 0 := by
  have hz : j - d.length < padCount d.length n - 1 := by omega
  rw [padBytes, List.append_assoc, List.getD_append_right _ _ _ _ hd, List.getD_append _ _ _ _ (by simpa [zeros] using hz)]
  exact List.getD_replicate _ hz

/-- The last byte is the count. -/
theorem padBytes_getD_last (d : List Byte) {n : Nat} (h : 1 ≤ n) (b : Byte) :
    (padBytes d n).getD (d.length + padCount d.length n - 1) b = BitVec.ofNat 8 (padCount d.length n) := by
  have hk : 1 ≤ padCount d.length n := (padCount_bounds h d.length).1
  have hpos : d.length + padCount d.length n - 1 = (d ++ zeros (padCount d.length n - 1)).length := by
    simp [zeros]; omega
  rw [padBytes, hpos, List.getD_append_right _ _ _ _ le_rfl, Nat.sub_self]
  rfl

/-- A multiple of n above l has a greater quotient than l, so it lies at least n above l's own multiple. -/
theorem add_padCount_le {l m n : Nat} (h : 1 ≤ n) (hlt : l < m) (hm : m % n = 0) : l + padCount l n ≤ m := by
  have hmod : l % n < n := Nat.mod_lt l h
  have hl : n * (l / n) + l % n = l := Nat.div_add_mod l n
  have hquot : l / n + 1 ≤ m / n := Nat.div_lt_div_of_lt_of_dvd (Nat.dvd_of_mod_eq_zero hm) hlt
  calc l + padCount l n = n * (l / n + 1) := by rw [padCount, Nat.mul_add_one]; omega
    _ ≤ n * (m / n) := Nat.mul_le_mul_left n hquot
    _ ≤ m := Nat.mul_div_le m n

/-- Settles O34: k is `padCount`, and the three parts of `padBytes` are read at their indices. -/
theorem padAppendsZerosAndTheCount : Obligations.PadAppendsZerosAndTheCount := by
  intro d n hn _
  obtain ⟨hpos, hle⟩ := padCount_bounds hn d.length
  have hlen := padBytes_length d hn
  refine ⟨padCount d.length n, hpos, hle, rfl, hlen, ?_, padBytes_take d n, fun j => padBytes_getD_zero d 1,
    padBytes_getD_last d hn 0, fun m hlt hm => ?_⟩
  · rw [hlen, padCount_aligns hn]
  · rw [hlen]
    exact add_padCount_le hn hlt hm

/-! ## unpad -/

/-- `unpad`'s test of the bytes between the data and the count, on their indices in the whole sequence. -/
theorem any_ne_zero_beforeCount_iff {d : List Byte} {k : Nat} (hk : k ≤ d.length) :
    ((d.drop (d.length - k)).take (k - 1)).any (· != 0x00#8) = true ↔
      ∃ j, d.length - k ≤ j ∧ j + 2 ≤ d.length ∧ d.getD j 0 ≠ 0 := by
  simp only [List.any_eq_true, bne_iff_ne, List.mem_iff_getElem, List.length_take, List.length_drop, List.getElem_take,
    List.getElem_drop]
  constructor
  · rintro ⟨_, ⟨i, hi, rfl⟩, hne⟩
    refine ⟨d.length - k + i, by omega, by omega, ?_⟩
    rwa [List.getD_eq_getElem _ _ (by omega)]
  · rintro ⟨j, hfirst, hlast, hne⟩
    rw [List.getD_eq_getElem _ _ (by omega)] at hne
    exact ⟨_, ⟨j - (d.length - k), by omega, by simp [Nat.add_sub_cancel' hfirst]⟩, hne⟩

/-- Settles O35: R191's five clauses are grouped into the three tests `unpadBytes` makes. Past the first two 1 ≤ k ≤ n ≤
length, so the last test reads bytes of the sequence. -/
theorem unpadChecksStrictly : Obligations.UnpadChecksStrictly := by
  intro d n _ _
  dsimp only
  generalize hk : (d.getD (d.length - 1) 0).toNat = k
  have hk' : (d.getD (d.length - 1) 0x00#8).toNat = k := hk
  rw [← or_assoc, ← or_assoc (a := k = 0)]
  simp only [unpadBytes, hk']
  split
  next hlen => exact ⟨fun _ => rfl, fun hgood => absurd (.inl hlen) hgood⟩
  next hlen =>
    split
    next hcount => exact ⟨fun _ => rfl, fun hgood => absurd (.inr (.inl hcount)) hgood⟩
    next hcount =>
      have hn : n ≤ d.length := Nat.le_of_dvd (by omega) (Nat.dvd_of_mod_eq_zero (by omega))
      have hbytes := any_ne_zero_beforeCount_iff (show k ≤ d.length by omega)
      split
      next hbyte => exact ⟨fun _ => rfl, fun hgood => absurd (.inr (.inr (hbytes.mp hbyte))) hgood⟩
      next hbyte =>
        have hgood := not_or.mpr ⟨hlen, not_or.mpr ⟨hcount, hbytes.not.mp hbyte⟩⟩
        exact ⟨fun hbad => absurd hbad hgood, fun _ => rfl⟩

end Sys2Proof.Machine
end

section
/-! PROOFS. Decoding and encoding are inverse (spec/30_encoding.md sections 1 and 4): a record of fields decodes to a
command exactly when it is the record of that command, and a word and its fields determine each other. -/

namespace Sys2Proof

theorem decodePlain_eq_ok_iff {f : FormatC} {i j : Instr} :
    decodePlain f i = .ok j ↔ (f.mode = 0#3 ∧ f.nopad = false ∧ f.ivs = false ∧ f.bs = 0#8) ∧ i = j := by
  unfold decodePlain
  by_cases hm : f.mode = 0#3
  · by_cases hb : f.bs = 0#8 <;> cases f.nopad <;> cases f.ivs <;> simp [hm, hb]
  · simp [hm]

theorem decodePad_eq_ok_iff {f : FormatC} {i : BitVec 8 → Instr} {j : Instr} :
    decodePad f i = .ok j ↔ (f.mode = 0#3 ∧ f.nopad = false ∧ f.ivs = false) ∧ i f.bs = j := by
  unfold decodePad
  by_cases hm : f.mode = 0#3
  · cases f.nopad <;> cases f.ivs <;> simp [hm]
  · simp [hm]

theorem decodeMode_eq_ok_iff {f : FormatC} {ecb cbc cfb ofb ctr : Bool → Bool → Instr} {j : Instr} :
    decodeMode f ecb cbc cfb ofb ctr = .ok j ↔
      f.bs = 0#8 ∧ ((f.mode = 0#3 ∧ ecb f.nopad f.ivs = j) ∨ (f.mode = 1#3 ∧ cbc f.nopad f.ivs = j) ∨
        (f.mode = 2#3 ∧ cfb f.nopad f.ivs = j) ∨ (f.mode = 3#3 ∧ ofb f.nopad f.ivs = j) ∨
        (f.mode = 4#3 ∧ ctr f.nopad f.ivs = j)) := by
  unfold decodeMode
  by_cases hb : f.bs = 0#8
  · rw [if_neg (show ¬f.bs ≠ 0 from not_not.mpr hb)]
    split <;> simp_all [← BitVec.toNat_inj]
  · simp [hb]

theorem reservedSet_eq_false_iff (f : FormatC) :
    f.reservedSet = false ↔ f.reservedLow = 0 ∧ f.reservedHigh = 0 := by
  simp [FormatC.reservedSet]

theorem eq_ofNat_of_toNat_eq {w n : Nat} {x : BitVec w} (h : x.toNat = n) : x = BitVec.ofNat w n := by
  rw [← h, BitVec.ofNat_toNat, BitVec.setWidth_eq]

/-- The fields of a command decode to it. -/
theorem decodeFields_fields (i : Instr) : decodeFields i.fields = .ok i := by cases i <;> rfl

/-- Only a command's own fields decode to it: OP selects the command or, with MODE, the command, and every other field
is 0 or an operand (R68). -/
theorem fields_of_decodeFields {f : FormatC} {i : Instr} (h : decodeFields f = .ok i) : i.fields = f := by
  obtain ⟨op, mode, nopad, ivs, low, bs, high⟩ := f
  simp only [decodeFields] at h
  split at h
  case isTrue => cases h
  case isFalse hr =>
    obtain ⟨rfl, rfl⟩ := (reservedSet_eq_false_iff _).mp (Bool.not_eq_true _ ▸ hr)
    split at h
    case h_8 => cases h
    case h_1 hop | h_2 hop | h_3 hop =>
      cases eq_ofNat_of_toNat_eq hop
      obtain ⟨⟨rfl, rfl, rfl, rfl⟩, rfl⟩ := decodePlain_eq_ok_iff.mp h
      rfl
    case h_4 hop | h_5 hop =>
      cases eq_ofNat_of_toNat_eq hop
      obtain ⟨rfl, ⟨rfl, rfl⟩ | ⟨rfl, rfl⟩ | ⟨rfl, rfl⟩ | ⟨rfl, rfl⟩ | ⟨rfl, rfl⟩⟩ := decodeMode_eq_ok_iff.mp h <;> rfl
    case h_6 hop | h_7 hop =>
      cases eq_ofNat_of_toNat_eq hop
      obtain ⟨⟨rfl, rfl, rfl⟩, rfl⟩ := decodePad_eq_ok_iff.mp h
      rfl

@[simp] theorem decode_encode (i : Instr) : decode (encode i) = .ok i := by
  rw [decode, encode, splitC_joinC, decodeFields_fields]

theorem encode_of_decode {c : Word32} {i : Instr} (h : decode c = .ok i) : encode i = c := by
  rw [encode, fields_of_decodeFields h, joinC_splitC]

/-- A word decodes to a command exactly when it is the command's word. -/
theorem decode_eq_ok_iff {c : Word32} {i : Instr} : decode c = .ok i ↔ encode i = c :=
  ⟨encode_of_decode, fun h => h ▸ decode_encode i⟩

/-- Settles O1: the fields of a command decode to it and no other fields do, and words correspond to records of
fields. -/
theorem decodeAndEncodeAgree : Obligations.DecodeAndEncodeAgree :=
  ⟨decode_encode, fun _ _ => encode_of_decode⟩

end Sys2Proof
end

section
/-! PROOFS. The opcode map of spec/30_encoding.md R69 is the decoder: each row's mask keeps the fields that its commands
share and clears their operands. Then what a step does on a write to CMD. -/

namespace Sys2Proof

theorem splitC_injective : Function.Injective splitC :=
  Function.LeftInverse.injective (g := joinC) joinC_splitC

/-- The mask of a mode command's row clears NOPAD and IVS and keeps every other field. -/
theorem splitC_and_modeMask (c : Word32) :
    splitC (c &&& 0xFFFFFE7F) = { splitC c with nopad := false, ivs := false } := by
  simp only [splitC, BitVec.extractLsb'_and, BitVec.getLsbD_and, FormatC.mk.injEq]
  exact ⟨BitVec.and_allOnes, BitVec.and_allOnes, by simp, by simp, BitVec.and_allOnes, BitVec.and_allOnes,
    BitVec.and_allOnes⟩

/-- The mask of PAD's and UNPAD's rows clears BS and keeps every other field. -/
theorem splitC_and_padMask (c : Word32) : splitC (c &&& 0xFF00FFFF) = { splitC c with bs := 0 } := by
  simp only [splitC, BitVec.extractLsb'_and, BitVec.getLsbD_and, FormatC.mk.injEq]
  exact ⟨BitVec.and_allOnes, BitVec.and_allOnes, by simp, by simp, BitVec.and_allOnes, BitVec.and_zero,
    BitVec.and_allOnes⟩

/-- The words under a row are the words of the commands with the row's mnemonic. -/
theorem exists_decode_mnemonic_iff {c : Word32} {m : String} :
    (∃ i, decode c = .ok i ∧ i.mnemonic = m) ↔ ∃ i : Instr, i.mnemonic = m ∧ i.fields = splitC c := by
  simp only [decode_eq_ok_iff, encode, and_comm (b := _ = m)]
  refine exists_congr fun i => and_congr_right fun _ => ⟨fun h => ?_, fun h => ?_⟩
  · rw [← h, splitC_joinC]
  · rw [h, joinC_splitC]

/-- A row of the map for a command without options: one word. -/
theorem plainRow_iff {p : Word32} {m : String} {i : Instr} (hp : splitC p = i.fields)
    (hm : ∀ j : Instr, j.mnemonic = m ↔ j = i) (c : Word32) :
    (∃ j, decode c = .ok j ∧ j.mnemonic = m) ↔ c &&& 0xFFFFFFFF = p := by
  rw [exists_decode_mnemonic_iff, show c &&& 0xFFFFFFFF = c from BitVec.and_allOnes, ← splitC_injective.eq_iff, hp]
  simp [hm, eq_comm]

/-- A row of ENC or DEC: the words that differ from the pattern in NOPAD and IVS at most. -/
theorem modeRow_iff {p : Word32} {m : String} {i : Bool → Bool → Instr} {op : BitVec 4} {mode : BitVec 3}
    (hf : ∀ nopad ivs, (i nopad ivs).fields = modeFields op mode nopad ivs)
    (hp : splitC p = modeFields op mode false false) (hm : ∀ j : Instr, j.mnemonic = m ↔ ∃ nopad ivs, j = i nopad ivs)
    (c : Word32) : (∃ j, decode c = .ok j ∧ j.mnemonic = m) ↔ c &&& 0xFFFFFE7F = p := by
  rw [exists_decode_mnemonic_iff, ← splitC_injective.eq_iff, splitC_and_modeMask, hp]
  generalize splitC c = f
  constructor
  · rintro ⟨j, hj, rfl⟩
    obtain ⟨nopad, ivs, rfl⟩ := (hm j).mp hj
    rw [hf]
    rfl
  · intro h
    obtain ⟨_, _, nopad, ivs, _, _, _⟩ := f
    cases h
    exact ⟨i nopad ivs, (hm _).mpr ⟨_, _, rfl⟩, hf _ _⟩

/-- PAD's and UNPAD's rows: the words that differ from the pattern in BS at most. -/
theorem padRow_iff {p : Word32} {m : String} {i : BitVec 8 → Instr} {op : BitVec 4}
    (hf : ∀ bs, (i bs).fields = padFields op bs) (hp : splitC p = padFields op 0)
    (hm : ∀ j : Instr, j.mnemonic = m ↔ ∃ bs, j = i bs) (c : Word32) :
    (∃ j, decode c = .ok j ∧ j.mnemonic = m) ↔ c &&& 0xFF00FFFF = p := by
  rw [exists_decode_mnemonic_iff, ← splitC_injective.eq_iff, splitC_and_padMask, hp]
  generalize splitC c = f
  constructor
  · rintro ⟨j, hj, rfl⟩
    obtain ⟨bs, rfl⟩ := (hm j).mp hj
    rw [hf]
    rfl
  · intro h
    obtain ⟨_, _, _, _, _, bs, _⟩ := f
    cases h
    exact ⟨i bs, (hm _).mpr ⟨_, rfl⟩, hf _⟩

/-- A command is one of three without operands, of ten with two flags or of two with a block size: as a sum type. -/
def instrEquivSum := proxy_equiv% Instr

theorem card_instr : Nat.card Instr = 3 + 10 * (2 * 2) + 2 * 2 ^ 8 := by
  rw [← Nat.card_congr instrEquivSum, Nat.card_eq_fintype_card]
  decide +kernel

/-- The legal words are counted by their commands. -/
theorem card_legalWords : Nat.card { c : Word32 // ∃ i, decode c = .ok i } = Nat.card Instr := by
  refine (Nat.card_eq_of_bijective (fun i : Instr => ⟨encode i, i, decode_encode i⟩) ⟨fun i j h => ?_, ?_⟩).symm
  · have henc : encode i = encode j := congrArg Subtype.val h
    have hdec := decode_encode i
    rw [henc, decode_encode] at hdec
    exact (Except.ok.inj hdec).symm
  · rintro ⟨c, i, hi⟩
    exact ⟨i, Subtype.ext (encode_of_decode hi)⟩

/-- Settles O3: row by row, and the count of the commands. -/
theorem opcodeMapIsTheDecoder : Obligations.OpcodeMapIsTheDecoder := by
  refine ⟨?_, card_legalWords.trans card_instr⟩
  simp only [opcodeMap, List.forall_mem_cons]
  refine ⟨plainRow_iff (i := .expand) rfl ?_, plainRow_iff (i := .encb) rfl ?_, plainRow_iff (i := .decb) rfl ?_,
    modeRow_iff (i := .encEcb) (fun _ _ => rfl) rfl ?_, modeRow_iff (i := .decEcb) (fun _ _ => rfl) rfl ?_,
    modeRow_iff (i := .encCbc) (fun _ _ => rfl) rfl ?_, modeRow_iff (i := .decCbc) (fun _ _ => rfl) rfl ?_,
    modeRow_iff (i := .encCfb) (fun _ _ => rfl) rfl ?_, modeRow_iff (i := .decCfb) (fun _ _ => rfl) rfl ?_,
    modeRow_iff (i := .encOfb) (fun _ _ => rfl) rfl ?_, modeRow_iff (i := .decOfb) (fun _ _ => rfl) rfl ?_,
    modeRow_iff (i := .encCtr) (fun _ _ => rfl) rfl ?_, modeRow_iff (i := .decCtr) (fun _ _ => rfl) rfl ?_,
    padRow_iff (i := .pad) (fun _ => rfl) rfl ?_, padRow_iff (i := .unpad) (fun _ => rfl) rfl ?_, fun _ h => nomatch h⟩
  all_goals intro j; cases j <;> simp [Instr.mnemonic]

/-- Settles O4: each word's fields are read off it. -/
theorem sampleWordsDecode : Obligations.SampleWordsDecode := by
  unfold Obligations.SampleWordsDecode
  decide

end Sys2Proof

namespace Sys2Proof.Machine

/-- A write to CMD of a word that decodes is a step that runs the command. -/
theorem step_of_decode {s : State} {c : Word32} {rest : List HostTxn} {i : Instr}
    (hp : s.pending = .write32 0 c :: rest) (hd : decode c = .ok i) : step s = exec i { s with pending := rest } := by
  rw [step_of_pending hp, perform_write32_cmd, runCommand, hd]

/-- A command leaves the host's list alone. -/
theorem exec_pending {i : Instr} {s t : State} (h : exec i s = .next t) : t.pending = s.pending := by
  obtain ⟨e, -, rfl⟩ | ⟨out, -, rfl⟩ := exec_cases h <;> simp

/-- Settles O5: a step performs the first transaction of the list, and a write to CMD runs the decoded command. -/
theorem stepRunsTheDecodedCommand : Obligations.StepRunsTheDecodedCommand := by
  refine ⟨fun s c rest i hp hd => ⟨step_of_decode hp hd, fun t ht => exec_pending ht⟩, fun s hp => ?_⟩
  rw [step, stepHost, hp]

/-- The table's reading of a word of at most 32 bits is the decoder's. -/
theorem decode_of_decodeTableWord {nbits w : Nat} {i : Instr} (h : decodeTableWord nbits w = some i) :
    decode (BitVec.ofNat 32 (w % 2 ^ nbits)) = .ok i := by
  simp only [decodeTableWord] at h
  split at h
  case isFalse => cases h
  case isTrue =>
    split at h
    case h_1 j hd => cases h; exact hd
    case h_2 => cases h

/-- Settles O6: the placed word is the next transaction, a write to CMD. -/
theorem placedWordRunsItsCommand : Obligations.PlacedWordRunsItsCommand := by
  intro s nbits w i _ h
  exact step_of_decode (State.withCommand_pending s _) (decode_of_decodeTableWord h)

end Sys2Proof.Machine
end

section
/-! PROOFS. The invariant of spec/10_state.md R29: it holds after reset, each way a state can be updated keeps it, and
so every step does. -/

namespace Sys2Proof.Machine

/-! ## Reset -/

theorem reset_inv : State.reset.Inv where
  noSchedule _ := ⟨rfl, rfl⟩
  schedule h := nomatch h
  errorHasNoOutput _ := rfl
  outputFits := Nat.zero_le _
  chainClear := rfl
  errKnown := Nat.zero_le _
  dinWf := reset_memory_wf.1
  dinWithin := Memory.nil_within _
  doutWf := reset_memory_wf.2
  doutWithin := Memory.nil_within _

/-- Settles O55: after reset there is no schedule, no output and nothing listed in DIN and DOUT. -/
theorem invariantHoldsAtReset : Obligations.InvariantHoldsAtReset := reset_inv

/-! ## The updates of a command -/

section Updates

variable {s : State} (hs : s.Inv)
include hs

/-- An error leaves no output, no CHAIN and a known code. -/
theorem raise_inv (e : ErrorKind) : (s.raise e).Inv :=
  { hs with
    errorHasNoOutput := fun _ => rfl
    outputFits := Nat.zero_le _
    chainClear := rfl
    errKnown := e.code_le }

/-- A result that fits DOUT keeps DOUT's form, and its length is within the capacity. -/
theorem complete_inv {out : List Byte} (h : out.length ≤ Config.ocap) : (s.complete out).Inv :=
  { hs with
    errorHasNoOutput := fun herr => absurd rfl herr
    outputFits := (Nat.mod_le _ _).trans h
    errKnown := Nat.zero_le _
    doutWf := Memory.write_wf hs.doutWf 0 out
    doutWithin := Memory.write_within hs.doutWithin (by rwa [Nat.zero_add]) }

theorem clearChain_inv : s.clearChain.Inv := { hs with chainClear := rfl }

/-- A stored schedule is the whole expansion of the key it was made from. -/
theorem storeSchedule_inv (h : s.keylen = 16 ∨ s.keylen = 24 ∨ s.keylen = 32) :
    (s.storeSchedule (expandKey s.key).1 (expandKey s.key).2).Inv := by
  have hkey : s.key.length = 16 ∨ s.key.length = 24 ∨ s.key.length = 32 := by
    rw [s.key_length (by obtain h | h | h := h <;> simp [h])]
    obtain h | h | h := h <;> simp [h]
  have hnr : (BitVec.ofNat 4 (expandKey s.key).1).toNat = s.key.length / 4 + 6 := by
    rw [expandKey_rounds, BitVec.toNat_ofNat, Nat.mod_eq_of_lt (by omega)]
  have hholds : (s.storeSchedule (expandKey s.key).1 (expandKey s.key).2).HoldsSchedule := by
    refine ⟨s.key, hkey, hnr, fun i => ?_⟩
    rw [State.storeSchedule_nr, hnr, State.storeSchedule_rk, ← expandKey_rounds, Fin.getElem_fin, Vector.getElem_ofFn]
  exact { hs with
    noSchedule := fun h => nomatch h
    schedule := fun _ => hholds
    errorHasNoOutput := fun _ => rfl
    outputFits := Nat.zero_le _
    errKnown := Nat.zero_le _ }

theorem afterCommand_inv {i : Instr} {out : List Byte} (h : commandResult i s = .ok out) :
    (afterCommand i s out).Inv := by
  unfold afterCommand
  split
  case isTrue hi =>
    subst hi
    refine storeSchedule_inv hs (Decidable.of_not_not fun hn => ?_)
    rw [commandResult, if_neg hn] at h
    cases h
  case isFalse =>
    have hcomplete := complete_inv hs (commandResult_length h)
    split
    · exact clearChain_inv hcomplete
    · exact hcomplete

theorem runCommand_inv {c : Word32} {t : State} (h : runCommand c s = .next t) : t.Inv := by
  obtain ⟨e, rfl⟩ | ⟨i, out, -, hout, rfl⟩ := runCommand_cases h
  · exact raise_inv hs e
  · exact afterCommand_inv hs hout

/-! ## The host's transactions -/

/-- A byte write that reaches DIN lies within its capacity. -/
theorem write8_inv {a : Word32} {b : Byte} {t : State} (h : s.write8 a b = some t) : t.Inv := by
  obtain ⟨k, -, rfl⟩ | ⟨k, -, rfl⟩ | ⟨k, hloc, rfl⟩ | ⟨k, -, rfl⟩ := write8_cases h
  · exact { hs with }
  · exact { hs with }
  · have hk : k < Config.dcap := (locate_eq_some.mp hloc).2
    exact { hs with
      dinWf := Memory.write_wf hs.dinWf k [b]
      dinWithin := Memory.write_within hs.dinWithin hk }
  · exact hs

theorem write32_inv {a v : Word32} {t : State} (h : s.write32 a v = .next t) : t.Inv := by
  obtain ⟨-, hrun⟩ | ⟨-, rfl⟩ | ⟨-, rfl⟩ | ⟨-, rfl⟩ | ⟨-, rfl⟩ := write32_cases h
  · exact runCommand_inv hs hrun
  · exact { hs with }
  · exact { hs with }
  · exact { hs with }
  · exact hs

theorem perform_inv {x : HostTxn} {t : State} (h : perform x s = .next t) : t.Inv := by
  obtain ⟨r, rfl⟩ | ⟨a, b, -, hw⟩ | ⟨a, v, -, hw⟩ | ⟨-, rfl⟩ := perform_cases h
  · exact { hs with }
  · exact write8_inv hs hw
  · exact write32_inv hs hw
  · exact { reset_inv with }

end Updates

/-- Settles O56: a step is idle or performs one transaction, and every transaction keeps the invariant. -/
theorem stepKeepsTheInvariant : Obligations.StepKeepsTheInvariant := by
  intro s t hs h
  obtain ⟨-, rfl⟩ | ⟨x, rest, -, hx⟩ := step_cases h
  · exact hs
  · exact perform_inv (s := { s with pending := rest }) { hs with } hx

/-! ## The schedule's only writers -/

/-- A command that is not EXPAND, and a failed one, leaves RK, NR and KSV. -/
theorem exec_schedule_cases {i : Instr} {s t : State} (h : exec i s = .next t) :
    sameSchedule t s ∨ i = .expand ∧ (s.keylen = 16 ∨ s.keylen = 24 ∨ s.keylen = 32) ∧ t.ksv = true := by
  obtain ⟨e, -, rfl⟩ | ⟨out, hout, rfl⟩ := exec_cases h
  · exact .inl ⟨rfl, rfl, rfl⟩
  · by_cases hi : i = .expand
    · subst hi
      refine .inr ⟨rfl, Decidable.of_not_not fun hn => ?_, rfl⟩
      rw [commandResult, if_neg hn] at hout
      cases hout
    · exact .inl (afterCommand_schedule i s out hi)

/-- A transaction leaves the schedule unless it is the reset event or writes EXPAND with a legal KEYLEN. -/
theorem perform_schedule_cases {x : HostTxn} {s t : State} (h : perform x s = .next t) :
    sameSchedule t s ∨ x = .reset ∨
      x = .write32 0 0x00000001 ∧ (s.keylen = 16 ∨ s.keylen = 24 ∨ s.keylen = 32) ∧ t.ksv = true := by
  have same : sameSchedule s s := ⟨rfl, rfl, rfl⟩
  obtain ⟨r, rfl⟩ | ⟨a, b, -, hw⟩ | ⟨a, v, rfl, hw⟩ | ⟨rfl, -⟩ := perform_cases h
  · exact .inl same
  · obtain ⟨k, -, rfl⟩ | ⟨k, -, rfl⟩ | ⟨k, -, rfl⟩ | ⟨k, -, rfl⟩ := write8_cases hw <;> exact .inl same
  · obtain ⟨rfl, hrun⟩ | ⟨-, rfl⟩ | ⟨-, rfl⟩ | ⟨-, rfl⟩ | ⟨-, rfl⟩ := write32_cases hw
    · unfold runCommand at hrun
      split at hrun
      case h_1 i hd =>
        obtain hsame | ⟨rfl, hlegal, hksv⟩ := exec_schedule_cases hrun
        · exact .inl hsame
        · exact .inr (.inr ⟨by rw [← encode_of_decode hd]; rfl, hlegal, hksv⟩)
      case h_2 => cases hrun; exact .inl same
    all_goals exact .inl same
  · exact .inr (.inl rfl)

/-- Settles O17: an idle step changes nothing, and of the transactions only the two named ones reach the schedule. -/
theorem onlyExpandAndResetChangeTheSchedule : Obligations.OnlyExpandAndResetChangeTheSchedule := by
  intro s t h
  obtain ⟨-, rfl⟩ | ⟨x, rest, hp, hx⟩ := step_cases h
  · exact ⟨by simp, fun hset hclear => by simp [hset] at hclear⟩
  · rw [hp, List.head?_cons]
    obtain ⟨hrk, hnr, hksv⟩ | rfl | ⟨rfl, hlegal, hksv⟩ := perform_schedule_cases hx
    · simp_all
    · exact ⟨fun _ => .inl rfl, fun _ _ => rfl⟩
    · exact ⟨fun _ => .inr ⟨rfl, hlegal⟩, fun _ hclear => by simp [hksv] at hclear⟩

/-! ## The state after reset -/

/-- Settles O53: the reset event puts every field of the core to its value in `State.reset`. -/
theorem resetClearsTheCore : Obligations.ResetClearsTheCore := by
  intro s rest hp
  refine ⟨State.resetEvent { s with pending := rest }, step_of_pending hp,
    (by decide : State.reset.statusWord = 0), rfl, rfl, rfl, rfl, fun i => ?_, rfl, fun i => ?_, rfl, rfl, rfl, rfl,
    rfl, rfl, fun _ => rfl, fun _ => rfl⟩
  · exact Vector.getElem_replicate _
  · exact Vector.getElem_replicate _

/-- Settles O54: the five words are run on the fixed fields of `State.reset`; DLEN is 0, so no free byte of DIN is read,
and it lies below every DCAP. -/
theorem resetStateAndItsFirstCommands : Obligations.ResetStateAndItsFirstCommands := by
  refine ⟨⟨rfl, rfl, rfl, rfl, rfl, rfl, rfl, rfl, rfl⟩, ?_, ?_, ?_, ?_, ?_⟩
  · rfl
  · rfl
  · rfl
  · rfl
  · exact ⟨State.reset.complete (padBytes [] 16), rfl, rfl, rfl, State.complete_output _ _ (by decide)⟩

end Sys2Proof.Machine
end

section
/-! PROOFS. Which error a command ends in (spec/60_exceptions.md R203 to R211): the error of a command's result is that
of the first failing check of its list, and an error raised changes nothing but ERR, OLEN and CHAIN. -/

namespace Sys2Proof.Machine

/-! ## The error of a result -/

/-- The error a computation ends in, if it does. -/
def errorOf {α : Type} : Except ErrorKind α → Option ErrorKind
  | .error e => some e
  | .ok _ => none

@[simp] theorem errorOf_error {α : Type} (e : ErrorKind) : errorOf (.error e : Except ErrorKind α) = some e := rfl

@[simp] theorem errorOf_ok {α : Type} (a : α) : errorOf (.ok a) = none := rfl

@[simp] theorem errorOf_map {α β : Type} (f : α → β) (r : Except ErrorKind α) : errorOf (r.map f) = errorOf r := by
  cases r <;> rfl

theorem eq_error_of_errorOf {α : Type} {r : Except ErrorKind α} {e : ErrorKind} (h : errorOf r = some e) :
    r = .error e := by
  cases r <;> simp_all

theorem exists_ok_of_errorOf {α : Type} {r : Except ErrorKind α} (h : errorOf r = none) : ∃ a, r = .ok a := by
  cases r <;> simp_all

/-- Operands guarded by a list of checks, then a computation whose error is another list's: the lists joined. -/
theorem errorOf_guarded_bind {α β : Type} {r : Except ErrorKind α} {a : α} {l m : List (Bool × ErrorKind)}
    (hr : r = match firstFailing l with | some e => .error e | none => .ok a) {f : α → Except ErrorKind β}
    (hf : errorOf (f a) = firstFailing m) : errorOf (r.bind f) = firstFailing (l ++ m) := by
  rw [firstFailing_append, hr]
  cases firstFailing l
  · exact hf
  · rfl

theorem errorOf_guarded {α : Type} {r : Except ErrorKind α} {a : α} {l : List (Bool × ErrorKind)}
    (hr : r = match firstFailing l with | some e => .error e | none => .ok a) : errorOf r = firstFailing l := by
  rw [hr]
  cases firstFailing l <;> rfl

theorem errorOf_prologue (d : Dir) (m : Mode) (padf ivs : Bool) (s : State) :
    errorOf (prologue d m padf ivs s) = firstFailing (prologueChecks d m padf ivs s) :=
  errorOf_guarded (prologue_eq d m padf ivs s)

/-- A check that does not apply can be left out. -/
@[simp] theorem ivCheck_false (s : State) : ivCheck false s = (false, .invalidBlockSize) := rfl

@[simp] theorem lengthCheck_false (s : State) : lengthCheck false s = (false, .misalignedLength) := rfl

@[simp] theorem paddingCheck_false (d : List Byte) (n : Nat) : paddingCheck false d n = (false, .invalidPadding) := rfl

theorem errorOf_unpadBytes (d : List Byte) (n : Nat) :
    errorOf (unpadBytes d n) = firstFailing [paddingCheck true d n] := by
  cases h : unpadBytes d n with
  | error e => simp [paddingCheck, h, unpadBytes_error h, Except.isOk, Except.toBool]
  | ok x => simp [paddingCheck, h, Except.isOk, Except.toBool]

theorem errorOf_unpadIf (padf : Bool) (d : List Byte) :
    errorOf (unpadIf padf d) = firstFailing [paddingCheck padf d 16] := by
  cases padf
  · simp [unpadIf]
  · exact errorOf_unpadBytes d 16

/-- The error of a command's result is the first failing one of its checks (60_exceptions.md R209). -/
theorem errorOf_commandResult (i : Instr) (s : State) :
    errorOf (commandResult i s) = firstFailing (errorChecks i s) := by
  cases i
  case expand =>
    simp only [commandResult, errorChecks]
    by_cases h16 : s.keylen = 16 <;> by_cases h24 : s.keylen = 24 <;> by_cases h32 : s.keylen = 32 <;> simp_all
  case encb | decb => rw [commandResult, errorOf_map, errorOf_guarded (blockOperand_eq s)]; rfl
  case pad bs => rw [commandResult, errorOf_map, errorOf_guarded (padOperand_eq s)]; rfl
  case unpad bs => exact errorOf_guarded_bind (padOperand_eq s) (errorOf_unpadBytes s.input (blockSize bs))
  case decEcb nopad ivs =>
    refine (errorOf_guarded_bind (prologue_eq _ _ _ _ s) (errorOf_unpadIf _ _)).trans ?_
    simp [prologueChecks, errorChecks, prologueChain, padFlag]
  case decCbc nopad ivs =>
    refine (errorOf_guarded_bind (prologue_eq _ _ _ _ s) (errorOf_unpadIf _ _)).trans ?_
    simp [prologueChecks, errorChecks, prologueChain, padFlag, State.initialChain]
  all_goals
    rw [commandResult, errorOf_map, errorOf_prologue]
    simp [prologueChecks, errorChecks, padFlag]

/-! ## What exec answers to a result -/

theorem exec_of_error {i : Instr} {s : State} {e : ErrorKind} (h : commandResult i s = .error e) :
    exec i s = .next (s.raise e) := by
  rw [exec_eq, h]

theorem exec_of_ok {i : Instr} {s : State} {out : List Byte} (h : commandResult i s = .ok out) :
    exec i s = .next (afterCommand i s out) := by
  rw [exec_eq, h]

/-- A command that ends with ERR 0 has its result written. -/
theorem exec_ok_cases {i : Instr} {s t : State} (h : exec i s = .next t) (herr : t.err = 0) :
    ∃ out, commandResult i s = .ok out ∧ t = afterCommand i s out := by
  obtain ⟨e, -, rfl⟩ | hok := exec_cases h
  · exact absurd herr e.code_ne_zero
  · exact hok

/-- A command that ends with ERR not 0 has raised an error. -/
theorem exec_error_cases {i : Instr} {s t : State} (h : exec i s = .next t) (herr : t.err ≠ 0) :
    ∃ e, commandResult i s = .error e ∧ t = s.raise e := by
  obtain herror | ⟨out, -, rfl⟩ := exec_cases h
  · exact herror
  · exact absurd (afterCommand_err i s out) herr

/-- Settles O38: the first failing check is the error of the result. -/
theorem firstFailingCheckDecides : Obligations.FirstFailingCheckDecides := by
  intro i s
  have h := errorOf_commandResult i s
  split
  next e he =>
    rw [he] at h
    exact exec_of_error (eq_error_of_errorOf h)
  next hnone =>
    rw [hnone] at h
    obtain ⟨out, hout⟩ := exists_ok_of_errorOf h
    exact ⟨_, exec_of_ok hout, afterCommand_err i s out⟩

/-- Settles O39: the state is the raise of the error. -/
theorem failedCommandChangesOnlyErrAndOlen : Obligations.FailedCommandChangesOnlyErrAndOlen := by
  intro i s t h herr
  obtain ⟨e, -, rfl⟩ := exec_error_cases h herr
  exact ⟨rfl, e, rfl⟩

/-- The codes of the kinds are 1 to 6 (R200). -/
theorem ErrorKind.code_mem (e : ErrorKind) : e.code.toNat ∈ [1, 2, 3, 4, 5, 6] := by cases e <;> decide

/-- Settles O40: a write to CMD raises an error or writes a result. -/
theorem everyCommandWordHasAnOutcome : Obligations.EveryCommandWordHasAnOutcome := by
  intro c s rest hp
  obtain ⟨t, ht⟩ := runCommand_next c { s with pending := rest }
  refine ⟨t, (step_of_pending hp).trans ht, ?_⟩
  obtain ⟨e, rfl⟩ | ⟨i, out, -, -, rfl⟩ := runCommand_cases ht
  · exact .inr e.code_mem
  · exact .inl (afterCommand_err i _ out)

/-! ## NoKeySchedule -/

/-- The commands that read RK. -/
def readsSchedule (i : Instr) : Prop := i ≠ .expand ∧ ∀ bs, i ≠ .pad bs ∧ i ≠ .unpad bs

/-- A command that reads RK checks its input's length first and the schedule second. -/
theorem errorChecks_of_readsSchedule {i : Instr} (h : readsSchedule i) (s : State) :
    ∃ l, errorChecks i s = inputCheck s :: scheduleCheck s :: l := by
  cases i
  case expand => exact absurd rfl h.1
  case pad bs => exact absurd rfl (h.2 bs).1
  case unpad bs => exact absurd rfl (h.2 bs).2
  all_goals exact ⟨_, rfl⟩

/-- The error decided is that of some failing check. -/
theorem mem_of_firstFailing {l : List (Bool × ErrorKind)} {e : ErrorKind} (h : firstFailing l = some e) :
    (true, e) ∈ l := by
  induction l with
  | nil => cases h
  | cons c l ih =>
    obtain ⟨failed, e'⟩ := c
    cases failed
    · exact List.mem_cons_of_mem _ (ih h)
    · cases h; exact List.mem_cons_self

/-- Only the check of KSV has the kind NoKeySchedule, and only the commands that read RK make it. -/
theorem ksv_of_noKeySchedule_mem {i : Instr} {s : State} (h : (true, .noKeySchedule) ∈ errorChecks i s) :
    s.ksv = false ∧ readsSchedule i := by
  cases i <;>
    simp_all [errorChecks, inputCheck, scheduleCheck, ivCheck, lengthCheck, paddingCheck, readsSchedule]

theorem ErrorKind.code_eq_six_iff {e : ErrorKind} : e.code = 6 ↔ e = .noKeySchedule := by cases e <;> decide

/-- Settles O42: the check of KSV is the second one of the commands that read RK, and no other check has its kind. -/
theorem noKeyScheduleComesBeforeOperands : Obligations.NoKeyScheduleComesBeforeOperands := by
  intro i s
  constructor
  · intro hpad hexp hksv hdlen
    obtain ⟨l, hl⟩ := errorChecks_of_readsSchedule ⟨hexp, hpad⟩ s
    refine exec_of_error (e := .noKeySchedule) (eq_error_of_errorOf ?_)
    rw [errorOf_commandResult, hl]
    simp [inputCheck, scheduleCheck, hksv, Nat.not_lt.mpr hdlen]
  · intro hcases t ht herr
    obtain ⟨e, he, rfl⟩ := exec_error_cases ht (by rw [herr]; decide)
    obtain rfl := ErrorKind.code_eq_six_iff.mp herr
    have hfirst := errorOf_commandResult i s
    rw [he] at hfirst
    obtain ⟨hksv, hexp, hpad⟩ := ksv_of_noKeySchedule_mem (mem_of_firstFailing hfirst.symm)
    obtain h | h | ⟨bs, h | h⟩ := hcases
    · simp [hksv] at h
    · exact hexp h
    · exact (hpad bs).1 h
    · exact (hpad bs).2 h

end Sys2Proof.Machine
end

section
/-! PROOFS. What a command reads and what it writes (spec/10_state.md sections 6 and 8, spec/20_memory.md R50): its
result depends on its operands alone, its operands stay as they were, and it writes to its output and, for EXPAND, the
schedule. -/

namespace Sys2Proof.Machine

/-! ## What a command reads -/

/-- The result of a command is a function of the operands R28 names for it. -/
theorem commandResult_congr {i : Instr} {s u : State} (h : sameOperands i s u) :
    commandResult i s = commandResult i u := by
  cases i
  case expand => simp only [commandResult, h.1]
  case encb => simp only [commandResult, blockOperand_congr h.1 h.2, encryptBlock_congr h.1]
  case decb => simp only [commandResult, blockOperand_congr h.1 h.2, decryptBlock_congr h.1]
  case pad bs => simp only [commandResult, padOperand_congr h]
  case unpad bs => simp only [commandResult, padOperand_congr h]
  case encEcb | decEcb =>
    simp only [commandResult, prologue_congr _ _ _ _ h.1 h.2 (fun h => absurd rfl h), encryptBlock_congr h.1,
      decryptBlock_congr h.1]
  all_goals
    obtain ⟨hschedule, hinput, hiv⟩ := h
    simp only [commandResult, prologue_congr _ _ _ _ hschedule hinput fun _ => hiv, encryptBlock_congr hschedule,
      decryptBlock_congr hschedule]

/-- What the states after a command hold, from the state before it and the result. -/
theorem afterCommand_congr {i : Instr} {s u : State} {out : List Byte} (h : sameOperands i s u)
    (hout : commandResult i s = .ok out) :
    (afterCommand i s out).olen = (afterCommand i u out).olen ∧
    (afterCommand i s out).output = (afterCommand i u out).output ∧
    (i = .expand → sameSchedule (afterCommand i s out) (afterCommand i u out)) := by
  by_cases hi : i = .expand
  · subst hi
    obtain ⟨-, hkey⟩ := h
    refine ⟨rfl, rfl, fun _ => ⟨?_, ?_, rfl⟩⟩ <;> simp only [afterCommand, if_true, State.storeSchedule_rk,
      State.storeSchedule_nr, hkey]
  · have hl := commandResult_length_lt hout
    refine ⟨?_, ?_, fun h => absurd h hi⟩
    · rw [afterCommand_olen i s out hi, afterCommand_olen i u out hi]
    · rw [afterCommand_output i s out hi hl, afterCommand_output i u out hi hl]

/-- Settles O46: the same operands give the same result, and a result or an error is written in the same way. -/
theorem resultsDependOnlyOnOperands : Obligations.ResultsDependOnlyOnOperands := by
  intro i s u t v h hs hu
  have hresult := commandResult_congr h
  obtain ⟨e, he, rfl⟩ | ⟨out, hout, rfl⟩ := exec_cases hs
  · rw [exec_of_error (hresult ▸ he)] at hu
    cases hu
    exact ⟨rfl, rfl, fun herr => absurd herr e.code_ne_zero⟩
  · rw [exec_of_ok (hresult ▸ hout)] at hu
    cases hu
    obtain ⟨holen, houtput, hschedule⟩ := afterCommand_congr h hout
    exact ⟨by simp, holen, fun _ => ⟨houtput, hschedule⟩⟩

/-! ## What a command leaves unchanged -/

/-- The commands that leave CHAIN alone when they succeed. -/
theorem usesChain_eq_false {i : Instr}
    (h : i ∈ [.expand, .encb, .decb] ∨ (∃ nopad ivs, i = .encEcb nopad ivs ∨ i = .decEcb nopad ivs) ∨
      ∃ bs, i = .pad bs ∨ i = .unpad bs) : usesChain i = false := by
  obtain h | ⟨nopad, ivs, rfl | rfl⟩ | ⟨bs, rfl | rfl⟩ := h
  · simp only [List.mem_cons, List.not_mem_nil, or_false] at h
    obtain rfl | rfl | rfl := h <;> rfl
  all_goals rfl

/-- Settles O43: field by field, for an error raised and for a result written. -/
theorem commandsLeaveTheirOperandsUnchanged : Obligations.CommandsLeaveTheirOperandsUnchanged := by
  intro i s t h
  obtain ⟨e, -, rfl⟩ | ⟨out, -, rfl⟩ := exec_cases h
  · exact ⟨rfl, rfl, rfl, rfl, rfl, rfl, rfl, rfl, rfl, fun _ => ⟨rfl, rfl, rfl⟩, .inr rfl,
      fun herr => absurd herr e.code_ne_zero⟩
  · refine ⟨afterCommand_keybuf .., afterCommand_keylen .., afterCommand_ivbuf .., afterCommand_ivlen ..,
      afterCommand_din .., afterCommand_dlen .., afterCommand_resets .., afterCommand_pending .., afterCommand_reply ..,
      afterCommand_schedule i s out, ?_, fun _ hi => ?_⟩
    · rw [afterCommand_chain]
      cases usesChain i
      · exact .inl rfl
      · exact .inr rfl
    · rw [afterCommand_chain, usesChain_eq_false hi]
      rfl

/-! ## A command written twice -/

/-- A state whose operands of every kind are those of s, the schedule too unless the command is EXPAND, has the
command's operands. -/
theorem sameOperands_of_frame {i : Instr} {s u : State} (hkeylen : u.keylen = s.keylen) (hkeybuf : u.keybuf = s.keybuf)
    (hivlen : u.ivlen = s.ivlen) (hivbuf : u.ivbuf = s.ivbuf) (hdlen : u.dlen = s.dlen) (hinput : u.input = s.input)
    (hschedule : i ≠ .expand → sameSchedule u s) : sameOperands i u s := by
  have hin : sameInput u s := ⟨hdlen, hinput⟩
  have hiv : ∀ ivs, sameIv ivs u s := fun _ _ => ⟨hivlen, hivbuf⟩
  cases i
  case expand => exact ⟨hkeylen, by rw [State.key, State.key, hkeylen, hkeybuf]⟩
  case pad | unpad => exact hin
  case encb | decb | encEcb | decEcb => exact ⟨hschedule (by simp), hin⟩
  all_goals exact ⟨hschedule (by simp), hin, hiv _⟩

theorem sameOperands_raise (i : Instr) (s : State) (e : ErrorKind) : sameOperands i (s.raise e) s :=
  sameOperands_of_frame rfl rfl rfl rfl rfl rfl fun _ => ⟨rfl, rfl, rfl⟩

theorem afterCommand_input (i : Instr) (s : State) (out : List Byte) : (afterCommand i s out).input = s.input := by
  unfold State.input State.dinByte
  rw [afterCommand_dlen, afterCommand_din, afterCommand_resets]

theorem sameOperands_afterCommand (i : Instr) (s : State) (out : List Byte) :
    sameOperands i (afterCommand i s out) s :=
  sameOperands_of_frame (by simp) (by simp) (by simp) (by simp) (by simp) (afterCommand_input i s out)
    (afterCommand_schedule i s out)

theorem State.complete_complete (s : State) (out : List Byte) : (s.complete out).complete out = s.complete out := by
  simp only [State.complete, Memory.write_write _ 0 rfl]

/-- A result written a second time changes nothing. -/
theorem afterCommand_afterCommand (i : Instr) (s : State) (out : List Byte) :
    afterCommand i (afterCommand i s out) out = afterCommand i s out := by
  unfold afterCommand
  split
  · rfl
  · split
    · exact State.complete_complete s.clearChain out
    · exact State.complete_complete s out

/-- A command that has run computes the same again, on operands it left as they were. -/
theorem exec_exec {i : Instr} {s t : State} (h : exec i s = .next t) : exec i t = .next t := by
  obtain ⟨e, he, rfl⟩ | ⟨out, hout, rfl⟩ := exec_cases h
  · exact exec_of_error ((commandResult_congr (sameOperands_raise i s e)).trans he)
  · rw [exec_of_ok ((commandResult_congr (sameOperands_afterCommand i s out)).trans hout), afterCommand_afterCommand]

/-- Settles O45: the word decodes to the same command, or to none, both times. -/
theorem commandWrittenTwiceEqualsOnce : Obligations.CommandWrittenTwiceEqualsOnce := by
  intro c s t h
  unfold runCommand at h ⊢
  split at h
  · exact exec_exec h
  · cases h; rfl

/-! ## What a command writes -/

/-- A byte read, through the region the address lies in. -/
theorem read8_eq_bind (s : State) (a : Word32) :
    s.read8 a = (locate a).bind fun p => if p.1 = .csr then none else some (s.regionByte p.1 p.2) := by
  unfold State.read8
  cases locate a with
  | none => rfl
  | some p => obtain ⟨r, k⟩ := p; cases r <;> rfl

/-- Two states read alike at an address if they hold the same byte in the region it lies in. -/
theorem read8_congr {s t : State} {a : Word32}
    (h : ∀ r k, r ≠ .csr → a.toNat = r.base + k → k < r.size → t.regionByte r k = s.regionByte r k) :
    t.read8 a = s.read8 a := by
  rw [read8_eq_bind, read8_eq_bind]
  cases hl : locate a with
  | none => rfl
  | some p =>
    obtain ⟨r, k⟩ := p
    obtain ⟨hbase, hsize⟩ := locate_eq_some.mp hl
    by_cases hr : r = .csr
    · simp [hr]
    · simp [hr, h r k hr hbase hsize]

theorem raise_regionByte (s : State) (e : ErrorKind) (r : Region) (k : Nat) :
    (s.raise e).regionByte r k = s.regionByte r k := by cases r <;> rfl

/-- A result changes a byte only of DOUT, below its length, or of RK, if it is EXPAND's. -/
theorem afterCommand_regionByte (i : Instr) (s : State) (out : List Byte) {r : Region} {k : Nat}
    (hrk : r = .rk → i ≠ .expand) (hdout : r = .dout → i ≠ .expand → out.length ≤ k) :
    (afterCommand i s out).regionByte r k = s.regionByte r k := by
  cases r
  case csr => rfl
  case keybuf => simp [State.regionByte, State.keybufByte]
  case ivbuf => simp [State.regionByte, State.ivbufByte]
  case din => simp [State.regionByte, State.dinByte]
  case rk => simp [State.regionByte, State.rkByte, (afterCommand_schedule i s out (hrk rfl)).1]
  case dout =>
    by_cases hi : i = .expand
    · subst hi; rfl
    · exact (afterCommand_doutByte i s out hi k).trans (if_neg (Nat.not_lt.mpr (hdout rfl hi)))

/-- Settles O44: an address that reads otherwise lies in a region and at an index that the command writes. -/
theorem commandsWriteOnlyTheirOutput : Obligations.CommandsWriteOnlyTheirOutput := by
  intro i s t a h
  obtain ⟨e, -, rfl⟩ | ⟨out, hout, rfl⟩ := exec_cases h
  · have hread : (s.raise e).read8 a = s.read8 a := read8_congr fun r k _ _ _ => raise_regionByte s e r k
    exact ⟨fun _ _ => hread, fun _ _ => hread, fun _ => rfl, fun _ _ => rfl⟩
  · refine ⟨fun hi ha => read8_congr fun r k _ hbase _ => ?_, fun hi ha => read8_congr fun r k _ hbase hsize => ?_,
      fun hcases => ?_, fun k hk => ?_⟩
    · rw [afterCommand_olen_toNat hi hout] at ha
      refine afterCommand_regionByte i s out (fun _ => hi) fun hr _ => ?_
      subst hr
      simp only [Region.base] at hbase
      omega
    · refine afterCommand_regionByte i s out (fun hr => ?_) fun _ hne => absurd hi hne
      subst hr
      simp only [Region.base, Region.size] at hbase hsize
      omega
    · obtain herr | rfl := hcases
      · exact absurd (afterCommand_err i s out) herr
      · rfl
    · refine afterCommand_regionByte i s out (r := .dout) nofun fun _ hi => ?_
      rwa [afterCommand_olen_toNat hi hout] at hk

end Sys2Proof.Machine
end

section
/-! PROOFS. The host's transactions (spec/20_memory.md sections 3 and 4): which addresses the regions hold, what a byte
or register access reads and writes there, and which accesses are refused. -/

namespace Sys2Proof.Machine

/-! ## Reads -/

/-- The address base + k lies in its region for every index of the region: no region wraps around. -/
theorem read8_base_add (s : State) {r : Region} (hr : r ≠ .csr) {k : Nat} (hk : k < r.size) :
    s.read8 (BitVec.ofNat 32 r.base + BitVec.ofNat 32 k) = some (s.regionByte r k) := by
  have hdcap := Config.dcap_bounds
  have hocap : Config.ocap = Config.dcap + 255 := rfl
  refine read8_eq s hr ?_ hk
  rw [← BitVec.ofNat_add, BitVec.toNat_ofNat, Nat.mod_eq_of_lt]
  cases r <;> simp only [Region.base, Region.size] at hk ⊢ <;> omega

theorem rkByte_eq (s : State) (i : Fin 15) (j : Fin 16) : s.rkByte (16 * i.val + j.val) = s.rk[i][j] := by
  have hi : (16 * i.val + j.val) / 16 = i.val := by omega
  have hj : (16 * i.val + j.val) % 16 = j.val := by omega
  simp [State.rkByte, roundKey, hi, hj]

/-- Settles O47: each region by its base and its size, the registers by definition. -/
theorem addressMapReads : Obligations.AddressMapReads := by
  intro s
  refine ⟨fun i => ?_, fun i => ?_, fun i j => ?_, fun i hi => ?_, fun i hi => ?_, rfl, rfl, rfl, rfl, rfl, rfl⟩
  · refine (read8_base_add s (r := .keybuf) nofun i.isLt).trans ?_
    simp [State.regionByte, State.keybufByte]
  · refine (read8_base_add s (r := .ivbuf) nofun i.isLt).trans ?_
    simp [State.regionByte, State.ivbufByte]
  · refine (read8_base_add s (r := .rk) nofun (show 16 * i.val + j.val < 240 by omega)).trans ?_
    exact congrArg some (rkByte_eq s i j)
  · exact read8_base_add s (r := .din) nofun hi
  · exact read8_base_add s (r := .dout) nofun hi

/-- Settles O50: a read writes `reply` and nothing else. -/
theorem hostReadsHaveNoSideEffect : Obligations.HostReadsHaveNoSideEffect := by
  intro s a rest
  refine ⟨fun b hp hb => ?_, fun v hp hv => ?_⟩
  · have hb' : State.read8 { s with pending := rest } a = some b := hb
    rw [step_of_pending hp, perform, hb']
  · have hv' : State.read32 { s with pending := rest } a = some v := hv
    rw [step_of_pending hp, perform, hv']

/-! ## Writes -/

/-- KEYLEN and IVLEN keep 8 bits and read with zeros above. -/
theorem setWidth_setWidth_eq_and (v : Word32) : (v.setWidth 8).setWidth 32 = v &&& 0xFF := by
  refine BitVec.eq_of_toNat_eq ?_
  have hlt : v.toNat % 256 < 4294967296 := by omega
  simp [Nat.and_two_pow_sub_one_eq_mod v.toNat 8, Nat.mod_eq_of_lt hlt]

/-- Settles O49: the write at each register's address. -/
theorem hostRegisterWrites : Obligations.HostRegisterWrites := by
  refine fun s v rest => ⟨fun hp => ⟨_, step_of_pending hp, rfl, ?_⟩, fun hp => ⟨_, step_of_pending hp, rfl, ?_⟩,
    fun hp => step_of_pending hp, fun hp => step_of_pending hp, fun hp => step_of_pending hp⟩
  · exact congrArg some (setWidth_setWidth_eq_and v)
  · exact congrArg some (setWidth_setWidth_eq_and v)

section ByteWrite

variable (s : State) (b : Byte) (k : Nat) (r' : Region) (k' : Nat)

theorem regionByte_setKeybuf (hk : k < 32) :
    State.regionByte { s with keybuf := s.keybuf.setIfInBounds k b } r' k' =
      if r' = .keybuf ∧ k' = k then b else s.regionByte r' k' := by
  cases r'
  case keybuf =>
    by_cases h : k' = k
    · simp [State.regionByte, State.keybufByte, h, hk]
    · simp [State.regionByte, State.keybufByte, h, Ne.symm h]
  all_goals exact (if_neg nofun).symm

theorem regionByte_setIvbuf (hk : k < 16) :
    State.regionByte { s with ivbuf := s.ivbuf.setIfInBounds k b } r' k' =
      if r' = .ivbuf ∧ k' = k then b else s.regionByte r' k' := by
  cases r'
  case ivbuf =>
    by_cases h : k' = k
    · simp [State.regionByte, State.ivbufByte, h, hk]
    · simp [State.regionByte, State.ivbufByte, h, Ne.symm h]
  all_goals exact (if_neg nofun).symm

theorem regionByte_writeDin :
    State.regionByte { s with din := s.din.write k [b] } r' k' =
      if r' = .din ∧ k' = k then b else s.regionByte r' k' := by
  cases r'
  case din =>
    by_cases h : k' = k
    · simp [State.regionByte, State.dinByte, Memory.cellAt_write, h]
    · simp [State.regionByte, State.dinByte, Memory.cellAt_write, h, show ¬(k ≤ k' ∧ k' ≤ k) by omega]
  all_goals exact (if_neg nofun).symm

end ByteWrite

/-- What a byte write to KEYBUF, IVBUF or DIN leaves: the byte in its place, every other byte of every region, and every
field that holds no byte of a region. -/
theorem write8_stores (s : State) {a : Word32} (b : Byte) {r : Region} {k : Nat}
    (hr : r = .keybuf ∨ r = .ivbuf ∨ r = .din) (ha : locate a = some (r, k)) :
    ∃ t, s.write8 a b = some t ∧
      (∀ r' k', t.regionByte r' k' = if r' = r ∧ k' = k then b else s.regionByte r' k') ∧
      (∀ a', t.read32 a' = s.read32 a') ∧ t.chain = s.chain ∧ t.pending = s.pending ∧ t.reply = s.reply := by
  have hk : k < r.size := (locate_eq_some.mp ha).2
  unfold State.write8
  rw [ha]
  obtain rfl | rfl | rfl := hr
  · exact ⟨_, rfl, fun r' k' => regionByte_setKeybuf s b k r' k' hk, fun _ => rfl, rfl, rfl, rfl⟩
  · exact ⟨_, rfl, fun r' k' => regionByte_setIvbuf s b k r' k' hk, fun _ => rfl, rfl, rfl, rfl⟩
  · exact ⟨_, rfl, fun r' k' => regionByte_writeDin s b k r' k', fun _ => rfl, rfl, rfl, rfl⟩

/-- A byte write to RK or DOUT is ignored. -/
theorem write8_ignored (s : State) {a : Word32} (b : Byte) {r : Region} {k : Nat} (hr : r = .rk ∨ r = .dout)
    (ha : locate a = some (r, k)) : s.write8 a b = some s := by
  unfold State.write8
  rw [ha]
  obtain rfl | rfl := hr <;> rfl

theorem locate_of_between {a : Word32} (r : Region) (h : r.base ≤ a.toNat ∧ a.toNat < r.base + r.size) :
    locate a = some (r, a.toNat - r.base) := locate_eq_some.mpr (by omega)

/-- The addresses of KEYBUF, IVBUF and DIN; KEYBUF and IVBUF are adjacent. -/
theorem exists_locate_writable {a : Word32}
    (h : (0x100 ≤ a.toNat ∧ a.toNat ≤ 0x12F) ∨ (0x40000000 ≤ a.toNat ∧ a.toNat < 0x40000000 + Config.dcap)) :
    ∃ r k, (r = .keybuf ∨ r = .ivbuf ∨ r = .din) ∧ locate a = some (r, k) := by
  obtain h | h := h
  · by_cases h3 : a.toNat < 0x120
    · exact ⟨.keybuf, _, .inl rfl, locate_of_between .keybuf (by simp only [Region.base, Region.size]; omega)⟩
    · exact ⟨.ivbuf, _, .inr (.inl rfl), locate_of_between .ivbuf (by simp only [Region.base, Region.size]; omega)⟩
  · exact ⟨.din, _, .inr (.inr rfl), locate_of_between .din (by simp only [Region.base, Region.size]; omega)⟩

/-- The addresses of RK and DOUT. -/
theorem exists_locate_readOnly {a : Word32}
    (h : (0x200 ≤ a.toNat ∧ a.toNat ≤ 0x2EF) ∨
      (0x80000000 ≤ a.toNat ∧ a.toNat < 0x80000000 + (Config.dcap + 255))) :
    ∃ r k, (r = .rk ∨ r = .dout) ∧ locate a = some (r, k) := by
  rw [← show Config.ocap = Config.dcap + 255 from rfl] at h
  obtain h | h := h
  · exact ⟨.rk, _, .inl rfl, locate_of_between .rk (by simp only [Region.base, Region.size]; omega)⟩
  · exact ⟨.dout, _, .inr rfl, locate_of_between .dout (by simp only [Region.base, Region.size]; omega)⟩

theorem step_of_write8 {s t : State} {a : Word32} {b : Byte} {rest : List HostTxn}
    (hp : s.pending = .write8 a b :: rest) (h : State.write8 { s with pending := rest } a b = some t) :
    step s = .next t := by
  rw [step_of_pending hp, perform, h]

/-- Settles O48: the write changes the one byte of the region it names, and different addresses name different bytes. -/
theorem hostByteWrites : Obligations.HostByteWrites := by
  intro s a b rest hp
  constructor
  · intro ha
    obtain ⟨r, k, hr, hloc⟩ := exists_locate_writable ha
    obtain ⟨hbase, hsize⟩ := locate_eq_some.mp hloc
    obtain ⟨t, ht, hbyte, hread32, hchain, hpending, hreply⟩ := write8_stores { s with pending := rest } b hr hloc
    refine ⟨t, step_of_write8 hp ht, ?_, fun a' ha' => read8_congr fun r' k' _ hbase' _ => ?_, hread32, hchain,
      hpending, hreply⟩
    · have hne : r ≠ .csr := by obtain rfl | rfl | rfl := hr <;> nofun
      rw [read8_eq t hne hbase hsize, hbyte, if_pos ⟨rfl, rfl⟩]
    · rw [hbyte, if_neg]
      · cases r' <;> rfl
      · rintro ⟨rfl, rfl⟩
        exact ha' (BitVec.eq_of_toNat_eq (hbase'.trans hbase.symm))
  · intro ha
    obtain ⟨r, k, hr, hloc⟩ := exists_locate_readOnly ha
    exact step_of_write8 hp (write8_ignored _ b hr hloc)

/-! ## Refusals -/

/-- The addresses of byte accesses are those of the five buffer regions. -/
theorem byteAddress_iff {a : Word32} : byteAddress a ↔ ∃ r k, r ≠ .csr ∧ locate a = some (r, k) := by
  constructor
  · rintro (h | h | h | h | h)
    · exact ⟨.keybuf, _, nofun, locate_of_between .keybuf (by simp only [Region.base, Region.size]; omega)⟩
    · exact ⟨.ivbuf, _, nofun, locate_of_between .ivbuf (by simp only [Region.base, Region.size]; omega)⟩
    · exact ⟨.rk, _, nofun, locate_of_between .rk (by simp only [Region.base, Region.size]; omega)⟩
    · exact ⟨.din, _, nofun, locate_of_between .din (by simp only [Region.base, Region.size]; omega)⟩
    · exact ⟨.dout, _, nofun, locate_of_between .dout (by simp only [Region.base, Region.size]; omega)⟩
  · rintro ⟨r, k, hr, hloc⟩
    obtain ⟨hbase, hsize⟩ := locate_eq_some.mp hloc
    unfold byteAddress
    cases r <;> simp only [Region.base, Region.size] at hbase hsize
    case csr => exact absurd rfl hr
    all_goals omega

theorem registerAddress_iff {a : Word32} :
    registerAddress a ↔ a.toNat = 0x00 ∨ a.toNat = 0x04 ∨ a.toNat = 0x08 ∨ a.toNat = 0x0C ∨ a.toNat = 0x10 ∨
      a.toNat = 0x14 := by
  simp [registerAddress, ← BitVec.toNat_inj]

theorem read8_eq_none_iff (s : State) (a : Word32) : s.read8 a = none ↔ ¬byteAddress a := by
  rw [byteAddress_iff, ← read8_isSome s, Option.not_isSome_iff_eq_none]

theorem write8_eq_none_iff (s : State) (a : Word32) (b : Byte) : s.write8 a b = none ↔ ¬byteAddress a := by
  rw [byteAddress_iff, ← write8_isSome s a b, Option.not_isSome_iff_eq_none]

/-- A 32-bit read is answered at the six registers and nowhere else. -/
theorem read32_eq_none_iff (s : State) (a : Word32) : s.read32 a = none ↔ ¬registerAddress a := by
  rw [registerAddress_iff]
  unfold State.read32
  split
  case h_7 => simp_all
  all_goals simp [*]

/-- A 32-bit write is refused at every address but those of the six registers; a command is never refused. -/
theorem write32_refused_iff (s : State) (a v : Word32) : (∃ r, s.write32 a v = .refused r) ↔ ¬registerAddress a := by
  rw [registerAddress_iff]
  unfold State.write32
  split
  case h_1 ha =>
    obtain ⟨t, ht⟩ := runCommand_next v s
    simp [ha, ht]
  case h_7 => simp_all
  all_goals simp [*]

/-- A transaction is refused exactly when it is none of the interface. -/
theorem perform_refused_iff (x : HostTxn) (s : State) : (∃ r, perform x s = .refused r) ↔ ¬x.legal := by
  cases x with
  | read8 a =>
    rw [HostTxn.legal, ← read8_eq_none_iff s, perform]
    cases s.read8 a <;> simp
  | write8 a b =>
    rw [HostTxn.legal, ← write8_eq_none_iff s a b, perform]
    cases s.write8 a b <;> simp
  | read32 a =>
    rw [HostTxn.legal, ← read32_eq_none_iff s, perform]
    cases s.read32 a <;> simp
  | write32 a v => exact write32_refused_iff s a v
  | reset => simp [perform, HostTxn.legal]
  | otherWidth bits a => simp [perform, HostTxn.legal]

/-- Settles O51: an idle step is not refused, and any other performs the first transaction. -/
theorem onlyNonTransactionsAreRefused : Obligations.OnlyNonTransactionsAreRefused := by
  intro s
  cases hp : s.pending with
  | nil => simp [step, stepHost, hp]
  | cons x rest =>
    rw [step_of_pending hp, perform_refused_iff]
    simp

/-! ## The words of the registers -/

/-- Bit i of STATUS (10_state.md R13). -/
theorem statusWord_getLsbD (s : State) (i : Nat) :
    s.statusWord.getLsbD i =
      if i < 4 then s.err.getLsbD i
      else if i < 5 then s.ksv
      else if i < 8 then false
      else if i < 12 then s.nr.getLsbD (i - 8)
      else false := by
  have hksv : (i - 4 < 1) = (i < 5) := by simp; omega
  have hlow : (i - 4 - 1 < 3) = (i < 8) := by simp; omega
  have hnr : (i - 8 < 4) = (i < 12) := by simp; omega
  have hnrBit : i - 4 - 1 - 3 = i - 8 := by omega
  have hksvBit : i < 5 → ¬i < 4 → i - 4 = 0 := by omega
  unfold State.statusWord
  simp only [BitVec.getLsbD_append, hksv, hlow, hnrBit, hnr, BitVec.getLsbD_zero]
  split
  · rfl
  next h4 =>
    split
    next h5 => simp [hksvBit h5 h4]
    · rfl

theorem setWidth_extractLsb' (v : BitVec 8) :
    (v.setWidth 32).extractLsb' 0 8 = v ∧ (v.setWidth 32).extractLsb' 8 24 = 0 := by
  refine ⟨BitVec.eq_of_getLsbD_eq fun i hi => ?_, BitVec.eq_of_getLsbD_eq fun i hi => ?_⟩
  · simp [hi]
    omega
  · simp [hi]

/-- Settles O52: the fields are laid end to end, with zeros between. -/
theorem reservedBitsReadZero : Obligations.ReservedBitsReadZero := by
  intro s
  refine ⟨⟨_, rfl, ?_, ?_, ?_, ?_, ?_⟩, ⟨_, rfl, setWidth_extractLsb' s.keylen⟩,
    ⟨_, rfl, setWidth_extractLsb' s.ivlen⟩⟩
  · refine BitVec.eq_of_getLsbD_eq fun i hi => ?_
    simp [statusWord_getLsbD, hi]
  · rw [statusWord_getLsbD]
    rfl
  · refine BitVec.eq_of_getLsbD_eq fun i hi => ?_
    simp [statusWord_getLsbD, hi, show ¬5 + i < 4 by omega, show ¬5 + i < 5 by omega, show 5 + i < 8 by omega]
  · refine BitVec.eq_of_getLsbD_eq fun i hi => ?_
    simp [statusWord_getLsbD, hi, show ¬8 + i < 4 by omega, show ¬8 + i < 5 by omega, show 8 + i < 12 by omega]
  · refine BitVec.eq_of_getLsbD_eq fun i hi => ?_
    simp [statusWord_getLsbD, hi, show ¬12 + i < 4 by omega, show ¬12 + i < 5 by omega, show ¬12 + i < 8 by omega]
end Sys2Proof.Machine
end

section
/-! PROOFS. Multiplication in GF(2^8) (spec/40_gf256.md sections 1 to 3): it is linear in both arguments, so its laws
need checking on the powers of x only; and the tables follow the rules that generate them. -/

namespace Sys2Proof.Machine

/-! ## The laws of multiplication -/

/-- The sum of two bytes is rearranged. -/
theorem xor_xor_xor_comm (a b c d : Byte) : a ^^^ b ^^^ (c ^^^ d) = a ^^^ c ^^^ (b ^^^ d) := by ac_rfl

theorem xtime_xor (a b : Byte) : xtime (a ^^^ b) = xtime a ^^^ xtime b := by
  have hcarry : (if (a ^^^ b).getLsbD 7 then 0x1B#8 else 0x00#8) =
      (if a.getLsbD 7 then 0x1B#8 else 0x00#8) ^^^ (if b.getLsbD 7 then 0x1B#8 else 0x00#8) := by
    rw [BitVec.getLsbD_xor]
    cases a.getLsbD 7 <;> cases b.getLsbD 7 <;> rfl
  unfold xtime
  rw [hcarry, BitVec.shiftLeft_xor_distrib, xor_xor_xor_comm]

theorem gmulLoop_xor_left (n : Nat) : ∀ a a' b p p' : Byte,
    gmulLoop n (a ^^^ a') b (p ^^^ p') = gmulLoop n a b p ^^^ gmulLoop n a' b p' := by
  induction n with
  | zero => intro a a' b p p'; rfl
  | succ n ih =>
    intro a a' b p p'
    simp only [gmulLoop, xtime_xor]
    split
    · rw [xor_xor_xor_comm, ih]
    · rw [ih]

theorem gmul_xor_left (a b c : Byte) : gmul (a ^^^ b) c = gmul a c ^^^ gmul b c :=
  gmulLoop_xor_left 8 a b c 0x00#8 0x00#8

/-- Both sides are linear in each argument, and they agree on the powers of x. -/
theorem gmul_comm (a b : Byte) : gmul a b = gmul b a := by
  have hpowers : ∀ j < 8, ∀ k < 8, gmul (1#8 <<< j) (1#8 <<< k) = gmul (1#8 <<< k) (1#8 <<< j) := by decide +kernel
  refine linear_ext (f := (gmul · b)) (g := (gmul b ·)) (gmul_xor_left · · b) (gmul_xor_right b) (fun j hj => ?_) a
  exact linear_ext (f := (gmul (1#8 <<< j) ·)) (g := (gmul · (1#8 <<< j))) (gmul_xor_right _) (gmul_xor_left · · _)
    (hpowers j hj) b

/-- As for `gmul_comm`, in three arguments. -/
theorem gmul_assoc (a b c : Byte) : gmul (gmul a b) c = gmul a (gmul b c) := by
  have hpowers : ∀ i < 8, ∀ j < 8, ∀ k < 8,
      gmul (gmul (1#8 <<< i) (1#8 <<< j)) (1#8 <<< k) = gmul (1#8 <<< i) (gmul (1#8 <<< j) (1#8 <<< k)) := by
    decide +kernel
  refine linear_ext (f := fun a => gmul (gmul a b) c) (g := fun a => gmul a (gmul b c))
    (fun _ _ => by simp only [gmul_xor_left]) (fun _ _ => by simp only [gmul_xor_left]) (fun i hi => ?_) a
  refine linear_ext (f := fun b => gmul (gmul (1#8 <<< i) b) c) (g := fun b => gmul (1#8 <<< i) (gmul b c))
    (fun _ _ => by simp only [gmul_xor_left, gmul_xor_right]) (fun _ _ => by simp only [gmul_xor_left, gmul_xor_right])
    (fun j hj => ?_) b
  exact linear_ext (f := fun c => gmul (gmul (1#8 <<< i) (1#8 <<< j)) c)
    (g := fun c => gmul (1#8 <<< i) (gmul (1#8 <<< j) c)) (fun _ _ => by simp only [gmul_xor_right])
    (fun _ _ => by simp only [gmul_xor_right]) (hpowers i hi j hj) c

theorem gmulLoop_zero_multiplier (n : Nat) : ∀ a p : Byte, gmulLoop n a 0x00#8 p = p := by
  induction n with
  | zero => intro a p; rfl
  | succ n ih => intro a p; simp [gmulLoop, ih]

/-- The first turn of the loop takes the one bit of 0x01. -/
theorem gmul_one (a : Byte) : gmul a 0x01#8 = a := by
  have h : gmul a 0x01#8 = gmulLoop 7 (xtime a) 0x00#8 (0x00#8 ^^^ a) := rfl
  rw [h, gmulLoop_zero_multiplier, BitVec.zero_xor]

theorem gmul_one_left (a : Byte) : gmul 0x01#8 a = a := by rw [gmul_comm, gmul_one]

/-- The second turn of the loop takes the one bit of 0x02. -/
theorem gmul_two (a : Byte) : gmul a 0x02#8 = xtime a := by
  have h : gmul a 0x02#8 = gmulLoop 6 (xtime (xtime a)) 0x00#8 (0x00#8 ^^^ xtime a) := rfl
  rw [h, gmulLoop_zero_multiplier, BitVec.zero_xor]

/-! ## Inverses -/

/-- The inverse of the affine map of R86, applied to the SBOX entry of a byte: the byte's multiplicative inverse. -/
def inverseFromSbox (a : Byte) : Byte :=
  (sbox a).rotateLeft 1 ^^^ (sbox a).rotateLeft 3 ^^^ (sbox a).rotateLeft 6 ^^^ 0x05#8

theorem gmul_inverseFromSbox : ∀ a : Byte, a ≠ 0x00#8 → gmul a (inverseFromSbox a) = 0x01#8 := by decide +kernel

/-- A byte has at most one multiplicative inverse. -/
theorem eq_inverseFromSbox {a b : Byte} (ha : a ≠ 0x00#8) (h : gmul a b = 0x01#8) : b = inverseFromSbox a :=
  calc b = gmul b (gmul a (inverseFromSbox a)) := by rw [gmul_inverseFromSbox a ha, gmul_one]
    _ = gmul (gmul a b) (inverseFromSbox a) := by rw [← gmul_assoc, gmul_comm b a]
    _ = inverseFromSbox a := by rw [h, gmul_one_left]

/-- Settles O7: linearity reduces the laws to the powers of x, and the inverses are read off SBOX. -/
theorem fieldMultiplicationLaws : Obligations.FieldMultiplicationLaws :=
  ⟨gmul_comm, fun a => ⟨gmul_zero_right a, gmul_one a, gmul_two a⟩, gmul_xor_right, gmul_assoc,
    fun a ha => ⟨inverseFromSbox a, gmul_inverseFromSbox a ha, fun _ h => eq_inverseFromSbox ha h⟩⟩

/-! ## The tables -/

theorem mem_allBytes (b : Byte) : b ∈ allBytes :=
  List.mem_map.mpr ⟨b.toNat, List.mem_range.mpr b.isLt, by simp⟩

/-- The search of `ginv` ends at the one inverse. -/
theorem ginv_eq_inverseFromSbox {a : Byte} (ha : a ≠ 0x00#8) : ginv a = inverseFromSbox a := by
  obtain ⟨b, hb⟩ : ∃ b, (allBytes.find? fun b => gmul a b = 0x01#8) = some b := by
    rw [← Option.isSome_iff_exists, List.find?_isSome]
    exact ⟨inverseFromSbox a, mem_allBytes _, by simpa using gmul_inverseFromSbox a ha⟩
  rw [ginv, if_neg ha, hb]
  exact eq_inverseFromSbox ha (by simpa using List.find?_some hb)

/-- The affine map of R86 undone and done again, entry by entry. -/
theorem affine_inverseFromSbox : ∀ a : Byte,
    inverseFromSbox a ^^^ (inverseFromSbox a).rotateLeft 1 ^^^ (inverseFromSbox a).rotateLeft 2 ^^^
      (inverseFromSbox a).rotateLeft 3 ^^^ (inverseFromSbox a).rotateLeft 4 ^^^ 0x63#8 = sbox a := by decide +kernel

theorem sbox_eq_sboxRule (a : Byte) : sbox a = sboxRule a := by
  by_cases ha : a = 0x00#8
  · subst ha; rfl
  · rw [sboxRule, ginv_eq_inverseFromSbox ha]
    exact (affine_inverseFromSbox a).symm

/-- Settles O9: SBOX through the inverse that its entry determines, RCON entry by entry. -/
theorem tablesFollowTheirRules : Obligations.TablesFollowTheirRules := by
  have hrcon : ∀ j < 10, 1 ≤ j → rcon (j + 1) = xtime (rcon j) := by decide +kernel
  exact ⟨sbox_eq_sboxRule, rfl, fun j h1 h2 => hrcon j h2 h1⟩

end Sys2Proof.Machine
end

section
/-! PROOFS. The steps of the block transform undo one another (spec/42_block_transform.md sections 2 and 3). -/

namespace Sys2Proof.Machine

/-! ## ShiftRows -/

theorem elementAt_congr (st : Block) {r r' c c' : Nat} (hr : r % 4 = r' % 4) (hc : c % 4 = c' % 4) :
    elementAt st r c = elementAt st r' c' := by
  simp only [elementAt, hr, hc]

theorem getElem_eq_elementAt (st : Block) (i : Nat) (h : i < 16) : st[i] = elementAt st (i % 4) (i / 4) := by
  rw [elementAt_eq st _ _ (by omega) (by omega)]
  congr 1
  omega

/-- ShiftRows moves row r left by r columns (R124). -/
theorem elementAt_shiftRows (st : Block) (r c : Nat) : elementAt (shiftRows st) r c = elementAt st r (c + r) := by
  rw [elementAt, shiftRows_get _ _ (by omega)]
  exact elementAt_congr st (by omega) (by omega)

/-- InvShiftRows moves row r right by r columns (R125). -/
theorem elementAt_invShiftRows_add (st : Block) (r c : Nat) :
    elementAt (invShiftRows st) r (c + r) = elementAt st r c := by
  have hrow : (r % 4 + 4 * ((c + r) % 4)) % 4 = r % 4 := by omega
  have hcolumn : (r % 4 + 4 * ((c + r) % 4)) / 4 = (c + r) % 4 := by omega
  rw [elementAt, invShiftRows_get _ _ (by omega), hrow, hcolumn]
  exact elementAt_congr st (by omega) (by omega)

@[simp] theorem invShiftRows_shiftRows (st : Block) : invShiftRows (shiftRows st) = st := by
  refine Vector.ext fun i h => ?_
  rw [invShiftRows_get _ _ h, elementAt_shiftRows, getElem_eq_elementAt st i h]
  exact elementAt_congr st rfl (by omega)

@[simp] theorem shiftRows_invShiftRows (st : Block) : shiftRows (invShiftRows st) = st := by
  refine Vector.ext fun i h => ?_
  rw [shiftRows_get _ _ h, elementAt_invShiftRows_add, getElem_eq_elementAt st i h]

/-- Settles O10: the two maps on the elements of the matrix. -/
theorem shiftRowsRotatesTheRows : Obligations.ShiftRowsRotatesTheRows := by
  intro st r c
  refine ⟨?_, ?_, invShiftRows_shiftRows st, shiftRows_invShiftRows st⟩
  · rw [← elementAt_eq (shiftRows st) r c r.isLt c.isLt, elementAt_shiftRows, ← elementAt_eq st r _ r.isLt (by omega)]
    exact elementAt_congr st rfl (Nat.mod_mod _ 4).symm
  · rw [← elementAt_eq _ r _ r.isLt (by omega), ← elementAt_eq st r c r.isLt c.isLt,
      ← elementAt_invShiftRows_add st r c]
    exact elementAt_congr _ rfl (Nat.mod_mod _ 4)

/-! ## MixColumns -/

/-- Element (r, c) of a matrix product (R126, R127). -/
theorem mixWith_getElem (m : Nat → Nat → Byte) (st : Block) (r c : Nat) (hr : r < 4) (hc : c < 4) :
    (mixWith m st)[4 * c + r] =
      gmul (m r 0) st[4 * c] ^^^ gmul (m r 1) st[4 * c + 1] ^^^ gmul (m r 2) st[4 * c + 2] ^^^
        gmul (m r 3) st[4 * c + 3] := by
  have hmod : (4 * c + r) % 4 = r := by omega
  have hdiv : (4 * c + r) / 4 = c := by omega
  rw [mixWith_get _ _ _ (by omega), hmod, hdiv]
  rw [elementAt_eq st 0 c (by decide) hc, elementAt_eq st 1 c (by decide) hc, elementAt_eq st 2 c (by decide) hc,
    elementAt_eq st 3 c (by decide) hc]
  simp only [Nat.add_comm _ (4 * c), Nat.add_zero]

/-- Settles O11: the entries of the two matrices, row by row. -/
theorem mixColumnsOnAColumn : Obligations.MixColumnsOnAColumn := by
  intro st c
  have mix := fun r hr => mixWith_getElem (matrixEntry mixMatrix) st r c hr c.isLt
  have inv := fun r hr => mixWith_getElem (matrixEntry invMixMatrix) st r c hr c.isLt
  refine ⟨⟨(mix 0 (by decide)).trans ?_, (mix 1 (by decide)).trans ?_, (mix 2 (by decide)).trans ?_,
    (mix 3 (by decide)).trans ?_⟩, (inv 0 (by decide)).trans ?_, (inv 1 (by decide)).trans ?_,
    (inv 2 (by decide)).trans ?_, (inv 3 (by decide)).trans ?_⟩
  all_goals simp [matrixEntry, mixMatrix, invMixMatrix, gmul_one_left]

/-- The sum of a column's bytes, each kept by its own diagonal entry of the identity matrix. -/
theorem mixWith_mixWith_of_inverse {m n : Nat → Nat → Byte}
    (h : ∀ r l, r < 4 → l < 4 → ∀ a, productEntry m n r l a = if r = l then a else 0x00#8) (st : Block) :
    mixWith m (mixWith n st) = st := by
  refine Vector.ext fun i hi => ?_
  have hr : i % 4 < 4 := Nat.mod_lt _ (by decide)
  rw [mixWith_mixWith_get m n st i hi, h _ 0 hr (by decide), h _ 1 hr (by decide), h _ 2 hr (by decide),
    h _ 3 hr (by decide), getElem_eq_elementAt st i hi]
  obtain h | h | h | h : i % 4 = 0 ∨ i % 4 = 1 ∨ i % 4 = 2 ∨ i % 4 = 3 := by omega
  all_goals simp [h]

@[simp] theorem invMixColumns_mixColumns (st : Block) : invMixColumns (mixColumns st) = st :=
  mixWith_mixWith_of_inverse invMix_mix_entry st

@[simp] theorem mixColumns_invMixColumns (st : Block) : mixColumns (invMixColumns st) = st :=
  mixWith_mixWith_of_inverse mix_invMix_entry st

/-- Settles O12: the products of the two matrices are the identity matrix. -/
theorem invMixColumnsUndoesMixColumns : Obligations.InvMixColumnsUndoesMixColumns :=
  fun st => ⟨invMixColumns_mixColumns st, mixColumns_invMixColumns st⟩

/-! ## E and D -/

@[simp] theorem invSubBytes_subBytes (st : Block) : invSubBytes (subBytes st) = st := by
  refine Vector.ext fun i h => ?_
  rw [invSubBytes_get _ _ h, subBytes_get _ _ h, invSbox_sbox]

@[simp] theorem subBytes_invSubBytes (st : Block) : subBytes (invSubBytes st) = st := by
  refine Vector.ext fun i h => ?_
  rw [subBytes_get _ _ h, invSubBytes_get _ _ h, sbox_invSbox]

@[simp] theorem addRoundKey_addRoundKey (st k : Block) : addRoundKey (addRoundKey st k) k = st :=
  xorBlock_xorBlock_self st k

theorem decRound_encRound (rk : Vector Block 15) (st : Block) (i : Nat) : decRound rk (encRound rk st i) i = st := by
  simp [decRound, encRound]

theorem encRound_decRound (rk : Vector Block 15) (st : Block) (i : Nat) : encRound rk (decRound rk st i) i = st := by
  simp [decRound, encRound]

/-- The rounds of D run in falling order, so each undoes the last one left of E. -/
theorem decryptBlock_encryptBlock (rk : Vector Block 15) (nr : Nat) (b : Block) :
    decryptBlock rk nr (encryptBlock rk nr b) = b := by
  simp [decryptBlock, encryptBlock, foldl_reverse_undoes (decRound_encRound rk), -List.foldl_reverse]

theorem encryptBlock_decryptBlock (rk : Vector Block 15) (nr : Nat) (b : Block) :
    encryptBlock rk nr (decryptBlock rk nr b) = b := by
  have hrounds := fun st => foldl_reverse_undoes (encRound_decRound rk) (middleRounds nr).reverse st
  simp only [List.reverse_reverse] at hrounds
  simp [decryptBlock, encryptBlock, hrounds, -List.foldl_reverse]

/-- Settles O13: step by step, the last step first. -/
theorem blockTransformsAreInverse : Obligations.BlockTransformsAreInverse :=
  fun rk nr b => ⟨decryptBlock_encryptBlock rk nr b, encryptBlock_decryptBlock rk nr b⟩

end Sys2Proof.Machine
end

section
/-! PROOFS. The key's bytes stand first in the schedule (spec/41_key_schedule.md section 2). -/

namespace Sys2Proof.Machine

/-- Settles O15: round key r holds words 4r to 4r + 3, and the first words of the schedule are the key's. -/
theorem keyBytesStartTheSchedule : Obligations.KeyBytesStartTheSchedule := by
  intro key hlen j hj
  rw [expandKey_get key (by omega) _ (by omega), scheduleWord_key _ _ (by omega), keyWord_get _ _ _ (by omega)]
  congr 1
  omega

end Sys2Proof.Machine
end

section
/-! PROOFS. `pad` and `unpad` are inverse (spec/44_padding.md R194). -/

namespace Sys2Proof.Machine

/-- The count is the one number from 1 to n that reaches a multiple of n. -/
theorem padCount_eq {l k n : Nat} (hk : 1 ≤ k) (hkn : k ≤ n) (h : (l + k) % n = 0) : padCount l n = k := by
  have hn : 1 ≤ n := hk.trans hkn
  have hlt : n - k < n := by omega
  obtain ⟨q, hq⟩ := Nat.dvd_of_mod_eq_zero h
  have hmod : l % n = n - k := by
    obtain _ | q := q
    · omega
    · have hl : l = n - k + n * q := by rw [Nat.mul_succ] at hq; omega
      rw [hl, Nat.add_mul_mod_self_left, Nat.mod_eq_of_lt hlt]
  rw [padCount, hmod]
  omega

/-- A padded sequence passes every test of `unpad`. -/
theorem unpadBytes_padBytes (x : List Byte) {n : Nat} (hn : 1 ≤ n) (hn255 : n ≤ 255) :
    unpadBytes (padBytes x n) n = .ok x := by
  obtain ⟨hpos, hle⟩ := padCount_bounds hn x.length
  have hlen := padBytes_length x hn
  have hcount : ((padBytes x n).getD ((padBytes x n).length - 1) 0).toNat = padCount x.length n := by
    rw [hlen, padBytes_getD_last x hn, BitVec.toNat_ofNat, Nat.mod_eq_of_lt (by omega)]
  have hgood := (unpadChecksStrictly (padBytes x n) n hn hn255).2
  rw [hcount, hlen, Nat.add_sub_cancel, padBytes_take] at hgood
  refine hgood ?_
  rintro (h | h | h | h | ⟨j, hfirst, hlast, hne⟩)
  · omega
  · exact h (padCount_aligns hn x.length)
  · omega
  · omega
  · exact hne (padBytes_getD_zero x 0 hfirst (by omega))

/-- `unpad` accepts only what `pad` gives. -/
theorem padBytes_of_unpadBytes {x y : List Byte} {n : Nat} (h : unpadBytes y n = .ok x) : padBytes x n = y := by
  obtain ⟨k, -, hk, hkn, -, hklen, hmod, hx, hy⟩ := unpadBytes_ok h
  have hxlen : x.length + k = y.length := by rw [hx, List.length_take]; omega
  have hcount : padCount x.length n = k := padCount_eq hk hkn (by rw [hxlen, hmod])
  rw [padBytes, hcount, ← hy]

/-- Settles O36: what `pad` gives, `unpad` accepts, and nothing else. -/
theorem padAndUnpadAreInverse : Obligations.PadAndUnpadAreInverse :=
  fun _ hn hn255 => ⟨fun x => unpadBytes_padBytes x hn hn255, fun _ _ => padBytes_of_unpadBytes⟩

end Sys2Proof.Machine
end

section
/-! PROOFS. When each command succeeds and with which result, and how long the result is (spec/43_modes.md section 1,
spec/42_block_transform.md section 4, spec/44_padding.md section 2). -/

namespace Sys2Proof.Machine

/-! ## The result of each command -/

theorem map_eq_ok_iff {α β : Type} {f : α → β} {r : Except ErrorKind α} {b : β} :
    r.map f = .ok b ↔ ∃ a, r = .ok a ∧ b = f a :=
  ⟨map_eq_ok, by rintro ⟨a, rfl, rfl⟩; rfl⟩

theorem bind_eq_ok_iff {α β : Type} {f : α → Except ErrorKind β} {r : Except ErrorKind α} {b : β} :
    r.bind f = .ok b ↔ ∃ a, r = .ok a ∧ f a = .ok b :=
  ⟨bind_eq_ok, by rintro ⟨a, rfl, h⟩; exact h⟩

theorem padFlag_eq_false {nopad : Bool} : padFlag nopad = false ↔ nopad = true := by cases nopad <;> decide

/-- The operands of a mode command that has an IV. -/
theorem prologue_chained_ok_iff {d : Dir} {m : Mode} (hm : m ≠ .ecb) {padf ivs : Bool} {s : State}
    {p : Block × List Byte} :
    prologue d m padf ivs s = .ok p ↔
      p = (s.initialChain ivs, s.input) ∧ s.modeReady ivs ∧
      (m = .cbc → (d = .dec ∨ padf = false) → s.dlen.toNat % 16 = 0) := by
  rw [prologue_ok_iff]
  simp only [prologueChain, State.modeReady, hm, ne_eq, not_false_eq_true, true_imp_iff, false_or]
  tauto

/-- The operands of an ECB command. -/
theorem prologue_ecb_ok_iff {d : Dir} {padf ivs : Bool} {s : State} {p : Block × List Byte} :
    prologue d .ecb padf ivs s = .ok p ↔
      p = (zeroBlock, s.input) ∧ s.ksv = true ∧ s.dlen.toNat ≤ Config.dcap ∧
      ((d = .dec ∨ padf = false) → s.dlen.toNat % 16 = 0) := by
  rw [prologue_ok_iff]
  simp only [prologueChain, if_true, ne_eq, not_true_eq_false, false_imp_iff, true_and, true_or, true_imp_iff]
  tauto

theorem le_dcap_of_dlen_eq {s : State} (h : s.dlen = 16) : s.dlen.toNat ≤ Config.dcap := by
  have hdcap := Config.dcap_bounds.1
  rw [h]
  exact le_trans (by decide) hdcap

theorem blockOperand_ok_iff {s : State} {b : List Byte} :
    blockOperand s = .ok b ↔ b = s.input ∧ s.ksv = true ∧ s.dlen = 16 := by
  refine ⟨fun h => ?_, fun ⟨hb, hksv, hdlen⟩ => ?_⟩
  · obtain ⟨hb, -, hksv, hdlen⟩ := blockOperand_ok h
    exact ⟨hb, hksv, hdlen⟩
  · rw [blockOperand_eq, hb]
    have hfits : ¬Config.dcap < s.dlen.toNat := Nat.not_lt.mpr (le_dcap_of_dlen_eq hdlen)
    have hone : (s.dlen != 16) = false := by simp [hdlen]
    simp only [inputCheck, scheduleCheck, firstFailing_cons, firstFailing_nil, hfits, hksv, hone]
    rfl

theorem padOperand_ok_iff {s : State} {b : List Byte} :
    padOperand s = .ok b ↔ b = s.input ∧ s.dlen.toNat ≤ Config.dcap := by
  refine ⟨padOperand_ok, fun ⟨hb, hdlen⟩ => ?_⟩
  rw [padOperand_eq, hb]
  simp [inputCheck, Nat.not_lt.mpr hdlen]

section Results

variable {nopad ivs : Bool} {s : State} {out : List Byte}

theorem encb_ok_iff : commandResult .encb s = .ok out ↔
    s.ksv = true ∧ s.dlen = 16 ∧ out = (s.encryptBlock (blockOf s.input)).toList := by
  simp only [commandResult, map_eq_ok_iff, blockOperand_ok_iff, and_assoc, exists_eq_left]

theorem decb_ok_iff : commandResult .decb s = .ok out ↔
    s.ksv = true ∧ s.dlen = 16 ∧ out = (s.decryptBlock (blockOf s.input)).toList := by
  simp only [commandResult, map_eq_ok_iff, blockOperand_ok_iff, and_assoc, exists_eq_left]

theorem encEcb_ok_iff : commandResult (.encEcb nopad ivs) s = .ok out ↔
    s.ksv = true ∧ s.dlen.toNat ≤ Config.dcap ∧ (nopad = true → s.dlen.toNat % 16 = 0) ∧
      out = runBlocks (ecbEncTurn s.encryptBlock) zeroBlock (padIf (padFlag nopad) s.input) := by
  simp only [commandResult, map_eq_ok_iff, prologue_ecb_ok_iff, and_assoc, exists_eq_left, padFlag_eq_false,
    reduceCtorEq, false_or]

theorem decEcb_ok_iff : commandResult (.decEcb nopad ivs) s = .ok out ↔
    s.ksv = true ∧ s.dlen.toNat ≤ Config.dcap ∧ s.dlen.toNat % 16 = 0 ∧
      unpadIf (padFlag nopad) (runBlocks (ecbDecTurn s.decryptBlock) zeroBlock s.input) = .ok out := by
  simp only [commandResult, bind_eq_ok_iff, prologue_ecb_ok_iff, and_assoc, exists_eq_left, true_or, true_imp_iff]

theorem encCbc_ok_iff : commandResult (.encCbc nopad ivs) s = .ok out ↔
    s.modeReady ivs ∧ (nopad = true → s.dlen.toNat % 16 = 0) ∧
      out = runBlocks (cbcEncTurn s.encryptBlock) (s.initialChain ivs) (padIf (padFlag nopad) s.input) := by
  simp only [commandResult, map_eq_ok_iff, prologue_chained_ok_iff (show Mode.cbc ≠ .ecb by decide), and_assoc,
    exists_eq_left, padFlag_eq_false, reduceCtorEq, false_or, true_imp_iff]

theorem decCbc_ok_iff : commandResult (.decCbc nopad ivs) s = .ok out ↔
    s.modeReady ivs ∧ s.dlen.toNat % 16 = 0 ∧
      unpadIf (padFlag nopad) (runBlocks (cbcDecTurn s.decryptBlock) (s.initialChain ivs) s.input) = .ok out := by
  simp only [commandResult, bind_eq_ok_iff, prologue_chained_ok_iff (show Mode.cbc ≠ .ecb by decide), and_assoc,
    exists_eq_left, true_or, true_imp_iff]

/-- CFB, OFB and CTR: any length, no padding. -/
theorem stream_ok_iff {d : Dir} {m : Mode} (hecb : m ≠ .ecb) (hcbc : m ≠ .cbc) {padf : Bool}
    {f : Block → List Byte → List Byte × Block} :
    (prologue d m padf ivs s).map (fun p => runBlocks f p.1 p.2) = .ok out ↔
      s.modeReady ivs ∧ out = runBlocks f (s.initialChain ivs) s.input := by
  simp only [map_eq_ok_iff, prologue_chained_ok_iff hecb, and_assoc, exists_eq_left, hcbc, false_imp_iff, true_and]

theorem encCfb_ok_iff : commandResult (.encCfb nopad ivs) s = .ok out ↔
    s.modeReady ivs ∧ out = runBlocks (cfbEncTurn s.encryptBlock) (s.initialChain ivs) s.input :=
  stream_ok_iff (by decide) (by decide)

theorem decCfb_ok_iff : commandResult (.decCfb nopad ivs) s = .ok out ↔
    s.modeReady ivs ∧ out = runBlocks (cfbDecTurn s.encryptBlock) (s.initialChain ivs) s.input :=
  stream_ok_iff (by decide) (by decide)

theorem encOfb_ok_iff : commandResult (.encOfb nopad ivs) s = .ok out ↔
    s.modeReady ivs ∧ out = runBlocks (ofbTurn s.encryptBlock) (s.initialChain ivs) s.input :=
  stream_ok_iff (by decide) (by decide)

theorem decOfb_ok_iff : commandResult (.decOfb nopad ivs) s = .ok out ↔
    s.modeReady ivs ∧ out = runBlocks (ofbTurn s.encryptBlock) (s.initialChain ivs) s.input :=
  stream_ok_iff (by decide) (by decide)

theorem encCtr_ok_iff : commandResult (.encCtr nopad ivs) s = .ok out ↔
    s.modeReady ivs ∧ out = runBlocks (ctrTurn s.encryptBlock) (s.initialChain ivs) s.input :=
  stream_ok_iff (by decide) (by decide)

theorem decCtr_ok_iff : commandResult (.decCtr nopad ivs) s = .ok out ↔
    s.modeReady ivs ∧ out = runBlocks (ctrTurn s.encryptBlock) (s.initialChain ivs) s.input :=
  stream_ok_iff (by decide) (by decide)

theorem pad_ok_iff {bs : BitVec 8} : commandResult (.pad bs) s = .ok out ↔
    s.dlen.toNat ≤ Config.dcap ∧ out = padBytes s.input (blockSize bs) := by
  simp only [commandResult, map_eq_ok_iff, padOperand_ok_iff, and_assoc, exists_eq_left]

theorem unpad_ok_iff {bs : BitVec 8} : commandResult (.unpad bs) s = .ok out ↔
    s.dlen.toNat ≤ Config.dcap ∧ unpadBytes s.input (blockSize bs) = .ok out := by
  simp only [commandResult, bind_eq_ok_iff, padOperand_ok_iff, and_assoc, exists_eq_left]

end Results

/-! ## The length of the result -/

/-- A whole number of blocks, in or out of the padding. -/
theorem padIf_aligned {nopad : Bool} {d : List Byte} (h : nopad = true → d.length % 16 = 0) :
    (padIf (padFlag nopad) d).length % 16 = 0 := by
  rw [padIf_length]
  cases nopad
  · exact padCount_aligns (by decide) d.length
  · exact h rfl

/-- The padded length as the table of R157 gives it. -/
theorem padIf_input_length (nopad : Bool) (s : State) :
    (padIf (padFlag nopad) s.input).length =
      if nopad then s.dlen.toNat else s.dlen.toNat + 16 - s.dlen.toNat % 16 := by
  have hmod : s.dlen.toNat % 16 < 16 := Nat.mod_lt _ (by decide)
  rw [padIf_length, s.input_length]
  cases nopad
  · simp only [padFlag, padCount, Bool.not_false, if_true, Bool.false_eq_true, if_false]; omega
  · rfl

/-- The value of the last byte is the number of bytes that `unpad` removes. -/
theorem unpadBytes_ok_length {d x : List Byte} {n : Nat} (h : unpadBytes d n = .ok x) :
    0 < d.length ∧ x.length + (d.getD (d.length - 1) 0).toNat = d.length := by
  obtain ⟨k, hk, hpos, -, -, hle, -, rfl, -⟩ := unpadBytes_ok h
  have hk' : (d.getD (d.length - 1) 0).toNat = k := hk.symm
  rw [hk', List.length_take]
  omega

/-- OLEN after a decryption, with or without padding. -/
theorem olen_of_unpadIf {nopad : Bool} {s t : State} {f : Block → List Byte → List Byte × Block} {iv : Block}
    {out : List Byte} (hf : ∀ l, l % 16 = 0 → TurnKeepsLength f l) (haligned : s.dlen.toNat % 16 = 0)
    (holen : t.olen.toNat = out.length) (h : unpadIf (padFlag nopad) (runBlocks f iv s.input) = .ok out) :
    if nopad then t.olen = s.dlen
    else t.olen.toNat + ((runBlocks f iv s.input).getD (s.dlen.toNat - 1) 0).toNat = s.dlen.toNat := by
  have hp : (runBlocks f iv s.input).length = s.dlen.toNat := by
    rw [runBlocks_length iv _ (hf _ (by rwa [s.input_length])), s.input_length]
  rw [holen, ← hp]
  cases nopad
  · exact (unpadBytes_ok_length h).2
  · cases h
    exact BitVec.eq_of_toNat_eq (holen.trans hp)

/-- OLEN after an encryption, with or without padding. -/
theorem olen_of_padIf {nopad : Bool} {s t : State} {f : Block → List Byte → List Byte × Block} {iv : Block}
    (hf : ∀ l, l % 16 = 0 → TurnKeepsLength f l) (haligned : nopad = true → s.dlen.toNat % 16 = 0)
    (holen : t.olen.toNat = (runBlocks f iv (padIf (padFlag nopad) s.input)).length) :
    t.olen.toNat = if nopad then s.dlen.toNat else s.dlen.toNat + 16 - s.dlen.toNat % 16 := by
  rw [holen, runBlocks_length _ _ (hf _ (padIf_aligned (by rwa [s.input_length]))), padIf_input_length]

/-- OLEN after a command that keeps the length of its input. -/
theorem olen_of_runBlocks {s t : State} {f : Block → List Byte → List Byte × Block} {iv : Block}
    (hf : TurnKeepsLength f s.input.length) (holen : t.olen.toNat = (runBlocks f iv s.input).length) :
    t.olen = s.dlen :=
  BitVec.eq_of_toNat_eq (holen.trans ((runBlocks_length iv _ hf).trans s.input_length))

/-- OLEN after a command whose result is a block. -/
theorem olen_of_block {t : State} {b : Block} (holen : t.olen.toNat = b.toList.length) : t.olen = 16 :=
  BitVec.eq_of_toNat_eq (holen.trans b.length_toList)

/-- Settles O33: the length of each command's result. -/
theorem outputLengths : Obligations.OutputLengths := by
  intro i s t h herr
  obtain ⟨out, hout, rfl⟩ := exec_ok_cases h herr
  have holen := fun hi : i ≠ .expand => afterCommand_olen_toNat hi hout
  cases i
  case expand => rfl
  case encb =>
    obtain ⟨-, -, rfl⟩ := encb_ok_iff.mp hout
    exact olen_of_block (holen nofun)
  case decb =>
    obtain ⟨-, -, rfl⟩ := decb_ok_iff.mp hout
    exact olen_of_block (holen nofun)
  case encEcb nopad ivs =>
    obtain ⟨-, -, haligned, rfl⟩ := encEcb_ok_iff.mp hout
    exact olen_of_padIf (fun _ => ecbEncTurn_keeps _) haligned (holen nofun)
  case encCbc nopad ivs =>
    obtain ⟨-, haligned, rfl⟩ := encCbc_ok_iff.mp hout
    exact olen_of_padIf (fun _ => cbcEncTurn_keeps _) haligned (holen nofun)
  case decEcb nopad ivs =>
    obtain ⟨-, -, haligned, hunpad⟩ := decEcb_ok_iff.mp hout
    exact olen_of_unpadIf (fun _ => ecbDecTurn_keeps _) haligned (holen nofun) hunpad
  case decCbc nopad ivs =>
    obtain ⟨-, haligned, hunpad⟩ := decCbc_ok_iff.mp hout
    exact olen_of_unpadIf (fun _ => cbcDecTurn_keeps _) haligned (holen nofun) hunpad
  case pad bs =>
    obtain ⟨-, rfl⟩ := pad_ok_iff.mp hout
    have hbs := (blockSize_bounds bs).1
    have hmod := Nat.mod_lt s.dlen.toNat hbs
    dsimp only
    rw [holen nofun, padBytes_length _ hbs, s.input_length, padCount]
    omega
  case unpad bs =>
    obtain ⟨-, hunpad⟩ := unpad_ok_iff.mp hout
    obtain ⟨hpos, hlen⟩ := unpadBytes_ok_length hunpad
    rw [s.input_length] at hpos hlen
    rw [State.input_getD s _ (by omega), ← holen nofun] at hlen
    exact hlen
  case encCfb =>
    obtain ⟨-, rfl⟩ := encCfb_ok_iff.mp hout
    exact olen_of_runBlocks (cfbEncTurn_keeps _ _) (holen nofun)
  case decCfb =>
    obtain ⟨-, rfl⟩ := decCfb_ok_iff.mp hout
    exact olen_of_runBlocks (cfbDecTurn_keeps _ _) (holen nofun)
  case encOfb =>
    obtain ⟨-, rfl⟩ := encOfb_ok_iff.mp hout
    exact olen_of_runBlocks (ofbTurn_keeps _ _) (holen nofun)
  case decOfb =>
    obtain ⟨-, rfl⟩ := decOfb_ok_iff.mp hout
    exact olen_of_runBlocks (ofbTurn_keeps _ _) (holen nofun)
  case encCtr =>
    obtain ⟨-, rfl⟩ := encCtr_ok_iff.mp hout
    exact olen_of_runBlocks (ctrTurn_keeps _ _) (holen nofun)
  case decCtr =>
    obtain ⟨-, rfl⟩ := decCtr_ok_iff.mp hout
    exact olen_of_runBlocks (ctrTurn_keeps _ _) (holen nofun)

end Sys2Proof.Machine
end

section
/-! PROOFS. The commands complete (spec/42_block_transform.md section 4, spec/43_modes.md sections 2 to 6,
spec/44_padding.md section 2): with their operands ready they answer a next state, and block or byte i of the result is
what the mode's rule gives, through the CHAIN before turn i. -/

namespace Sys2Proof.Machine

/-- What a command with a result leaves: no error, the result as the output, and CHAIN. -/
theorem exec_completes {i : Instr} {s : State} {out : List Byte} (hout : commandResult i s = .ok out)
    (hi : i ≠ .expand) :
    ∃ t, exec i s = .next t ∧ t.err = 0 ∧ t.olen.toNat = out.length ∧ t.output = out ∧
      t.chain = (if usesChain i then zeroBlock else s.chain) ∧ t.ivbuf = s.ivbuf :=
  ⟨afterCommand i s out, exec_of_ok hout, afterCommand_err .., afterCommand_olen_toNat hi hout,
    afterCommand_output i s out hi (commandResult_length_lt hout), afterCommand_chain i s out, afterCommand_ivbuf ..⟩

/-! ## ENCB and DECB, PAD and UNPAD -/

/-- Settles O18: the result is one block. -/
theorem blockCommandsComplete : Obligations.BlockCommandsComplete := by
  intro s hksv hdlen
  constructor
  · obtain ⟨t, hexec, herr, holen, houtput, hchain, -⟩ :=
      exec_completes (i := .encb) (encb_ok_iff.mpr ⟨hksv, hdlen, rfl⟩) nofun
    exact ⟨t, hexec, herr, olen_of_block holen, houtput, hchain⟩
  · obtain ⟨t, hexec, herr, holen, houtput, hchain, -⟩ :=
      exec_completes (i := .decb) (decb_ok_iff.mpr ⟨hksv, hdlen, rfl⟩) nofun
    exact ⟨t, hexec, herr, olen_of_block holen, houtput, hchain⟩

/-- Settles O37: PAD has no other check than the input's length, UNPAD only `unpad`'s. -/
theorem paddingCommandsComplete : Obligations.PaddingCommandsComplete := by
  refine fun bs s hdlen => ⟨?_, fun out hunpad => ?_⟩
  · obtain ⟨t, hexec, herr, holen, houtput, hchain, -⟩ :=
      exec_completes (i := .pad bs) (pad_ok_iff.mpr ⟨hdlen, rfl⟩) nofun
    exact ⟨t, hexec, herr, holen, houtput, hchain⟩
  · obtain ⟨t, hexec, herr, holen, houtput, hchain, -⟩ :=
      exec_completes (i := .unpad bs) (unpad_ok_iff.mpr ⟨hdlen, hunpad⟩) nofun
    exact ⟨t, hexec, herr, holen, houtput, hchain⟩

/-! ## CHAIN before each turn -/

section Chain

variable {f : Block → List Byte → List Byte × Block} (iv : Block) (d : List Byte)

/-- A mode whose turn hands on its output block. -/
theorem chainAt_of_output (hf : TurnKeepsLength f d.length)
    (hnext : ∀ c x, x.length = 16 → (f c x).2 = blockOf (f c x).1) {i : Nat} (hi : 16 * i ≤ d.length) :
    chainAt f iv d i = if i = 0 then iv else blockOf (blockAt (runBlocks f iv d) (i - 1)) := by
  cases i with
  | zero => rfl
  | succ i =>
    rw [chainAt, hnext _ _ (blockAt_full (by omega)), if_neg (Nat.succ_ne_zero i), Nat.add_sub_cancel,
      blockAt_runBlocks iv d hf i (by omega)]

/-- A mode whose turn hands on its input block. -/
theorem chainAt_of_input (hnext : ∀ c x, x.length = 16 → (f c x).2 = blockOf x) {i : Nat} (hi : 16 * i ≤ d.length) :
    chainAt f iv d i = if i = 0 then iv else blockOf (blockAt d (i - 1)) := by
  cases i with
  | zero => rfl
  | succ i => rw [chainAt, hnext _ _ (blockAt_full (by omega)), if_neg (Nat.succ_ne_zero i), Nat.add_sub_cancel]

/-- OFB hands on the keystream block. -/
theorem chainAt_ofbTurn (e : Block → Block) (i : Nat) : chainAt (ofbTurn e) iv d i = e^[i] iv := by
  induction i with
  | zero => rfl
  | succ i ih => rw [chainAt, ofbTurn, ih, Function.iterate_succ_apply']

/-- CTR hands on the counter, incremented. -/
theorem counterValue_chainAt_ctrTurn (e : Block → Block) (i : Nat) :
    counterValue (chainAt (ctrTurn e) iv d i) = (counterValue iv + i) % 2 ^ 128 := by
  induction i with
  | zero =>
    have hlt : counterValue iv < 2 ^ 128 := by
      rw [counterValue_eq_bytesValue]
      exact (bytesValue_lt _).trans_le (by simp)
    exact (Nat.mod_eq_of_lt hlt).symm
  | succ i ih => rw [chainAt, ctrTurn, counterValue_inc128, ih, Nat.mod_add_mod, Nat.add_assoc]

end Chain

theorem cbcEncTurn_next (e : Block → Block) (c : Block) (x : List Byte) :
    (cbcEncTurn e c x).2 = blockOf (cbcEncTurn e c x).1 := (blockOf_toList _).symm

theorem cbcDecTurn_next (e : Block → Block) (c : Block) (x : List Byte) : (cbcDecTurn e c x).2 = blockOf x := rfl

theorem cfbEncTurn_next (e : Block → Block) (c : Block) {x : List Byte} (hx : x.length = 16) :
    (cfbEncTurn e c x).2 = blockOf (cfbEncTurn e c x).1 := if_pos hx

theorem cfbDecTurn_next (e : Block → Block) (c : Block) {x : List Byte} (hx : x.length = 16) :
    (cfbDecTurn e c x).2 = blockOf x := if_pos hx

/-! ## ECB and CBC -/

theorem ecbEncTurn_output (e : Block → Block) (c : Block) (x : List Byte) :
    (ecbEncTurn e c x).1 = (e (blockOf x)).toList := rfl

theorem ecbDecTurn_output (e : Block → Block) (c : Block) (x : List Byte) :
    (ecbDecTurn e c x).1 = (e (blockOf x)).toList := rfl

theorem cbcEncTurn_output (e : Block → Block) (c : Block) (x : List Byte) :
    (cbcEncTurn e c x).1 = (e (xorBlock (blockOf x) c)).toList := rfl

theorem cbcDecTurn_output (e : Block → Block) (c : Block) (x : List Byte) :
    (cbcDecTurn e c x).1 = (xorBlock (e (blockOf x)) c).toList := by simp only [cbcDecTurn]

/-- The input of an encryption, as the statements write it. -/
theorem padIf_padFlag (nopad : Bool) (d : List Byte) :
    padIf (padFlag nopad) d = if nopad then d else padBytes d 16 := by cases nopad <;> rfl

/-- The output of a decryption, as the statements write it. -/
theorem unpadIf_padFlag {nopad : Bool} {p out : List Byte}
    (h : if nopad then out = p else unpadBytes p 16 = .ok out) : unpadIf (padFlag nopad) p = .ok out := by
  cases nopad
  · exact h
  · exact congrArg Except.ok h.symm

theorem blockCount_of_aligned {l : Nat} (h : l % 16 = 0) : blockCount l = l / 16 := by
  unfold blockCount
  omega

/-- A sequence whose blocks are the turns' answers is the loop's output. -/
theorem eq_runBlocks {f : Block → List Byte → List Byte × Block} {iv : Block} {d p : List Byte}
    (hf : TurnKeepsLength f d.length) (haligned : d.length % 16 = 0) (hlen : p.length = d.length)
    (h : ∀ i < p.length / 16, blockAt p i = (f (chainAt f iv d i) (blockAt d i)).1) : p = runBlocks f iv d := by
  refine eq_of_blockAt (hlen.trans (runBlocks_length iv d hf).symm) fun i hi => ?_
  rw [blockCount_of_aligned (hlen ▸ haligned)] at hi
  rw [h i hi, blockAt_runBlocks iv d hf i (by omega)]

/-- Settles O20: block i of the output is turn i's answer. -/
theorem encEcbCompletes : Obligations.EncEcbCompletes := by
  intro nopad ivs s hksv hdlen haligned d
  have hd : padIf (padFlag nopad) s.input = d := padIf_padFlag nopad s.input
  have hkeeps : TurnKeepsLength (ecbEncTurn s.encryptBlock) d.length :=
    ecbEncTurn_keeps _ (hd ▸ padIf_aligned (by rwa [s.input_length]))
  have hresult := (encEcb_ok_iff (ivs := ivs)).mpr ⟨hksv, hdlen, haligned, rfl⟩
  rw [hd] at hresult
  obtain ⟨t, hexec, herr, holen, houtput, hchain, -⟩ := exec_completes hresult nofun
  refine ⟨t, hexec, herr, holen.trans (runBlocks_length _ _ hkeeps), hchain, fun i hi => ?_⟩
  rw [houtput, blockAt_runBlocks _ _ hkeeps i (by omega), ecbEncTurn_output]

/-- Settles O21: the bytes p are the loop's output. -/
theorem decEcbCompletes : Obligations.DecEcbCompletes := by
  intro nopad ivs s p out hksv hdlen haligned hlen hblocks hout
  have haligned' : s.input.length % 16 = 0 := by rwa [s.input_length]
  obtain rfl : p = runBlocks (ecbDecTurn s.decryptBlock) zeroBlock s.input := by
    refine eq_runBlocks (ecbDecTurn_keeps _ haligned') haligned' (by rw [hlen, s.input_length]) fun i hi => ?_
    rw [ecbDecTurn_output]
    exact hblocks i hi
  obtain ⟨t, hexec, herr, holen, houtput, hchain, -⟩ :=
    exec_completes ((decEcb_ok_iff (ivs := ivs)).mpr ⟨hksv, hdlen, haligned, unpadIf_padFlag hout⟩) nofun
  exact ⟨t, hexec, herr, holen, houtput, hchain⟩

/-- Settles O22: block i of the output is turn i's answer, and CHAIN before it is the output block before. -/
theorem encCbcCompletes : Obligations.EncCbcCompletes := by
  intro nopad ivs s hready haligned d
  have hd : padIf (padFlag nopad) s.input = d := padIf_padFlag nopad s.input
  have hkeeps : TurnKeepsLength (cbcEncTurn s.encryptBlock) d.length :=
    cbcEncTurn_keeps _ (hd ▸ padIf_aligned (by rwa [s.input_length]))
  have hresult := encCbc_ok_iff.mpr ⟨hready, haligned, rfl⟩
  rw [hd] at hresult
  obtain ⟨t, hexec, herr, holen, houtput, hchain, -⟩ := exec_completes hresult nofun
  refine ⟨t, hexec, herr, holen.trans (runBlocks_length _ _ hkeeps), hchain, fun i hi => ?_⟩
  dsimp only
  rw [houtput, ← chainAt_of_output _ _ hkeeps (fun c x _ => cbcEncTurn_next _ c x) (by omega),
    blockAt_runBlocks _ _ hkeeps i (by omega), cbcEncTurn_output]

/-- Settles O23: the bytes p are the loop's output, and CHAIN before turn i is the input block before. -/
theorem decCbcCompletes : Obligations.DecCbcCompletes := by
  intro nopad ivs s p out hready haligned hlen hblocks hout
  have haligned' : s.input.length % 16 = 0 := by rwa [s.input_length]
  have hlen' : p.length = s.input.length := by rw [hlen, s.input_length]
  obtain rfl : p = runBlocks (cbcDecTurn s.decryptBlock) (s.initialChain ivs) s.input := by
    refine eq_runBlocks (cbcDecTurn_keeps _ haligned') haligned' hlen' fun i hi => ?_
    rw [chainAt_of_input _ _ (fun c x _ => cbcDecTurn_next s.decryptBlock c x) (by omega), cbcDecTurn_output]
    exact hblocks i hi
  obtain ⟨t, hexec, herr, holen, houtput, hchain, -⟩ :=
    exec_completes (decCbc_ok_iff.mpr ⟨hready, haligned, unpadIf_padFlag hout⟩) nofun
  exact ⟨t, hexec, herr, holen, houtput, hchain⟩

/-! ## CFB, OFB and CTR -/

/-- A command whose result is a loop of XORs with a keystream: byte j is the input's byte XOR byte j mod 16 of E of the
CHAIN before its block. -/
theorem stream_completes {i : Instr} {s : State} {ivs : Bool} {f : Block → List Byte → List Byte × Block}
    (hresult : commandResult i s = .ok (runBlocks f (s.initialChain ivs) s.input))
    (hf : ∀ c x, (f c x).1 = xorKeystream x (s.encryptBlock c)) (hi : i ≠ .expand) (hchained : usesChain i = true) :
    ∃ t, exec i s = .next t ∧ t.err = 0 ∧ t.olen = s.dlen ∧ t.chain = zeroBlock ∧ t.ivbuf = s.ivbuf ∧
      t.output = runBlocks f (s.initialChain ivs) s.input ∧
      ∀ j < s.dlen.toNat, t.doutByte j =
        s.dinByte j ^^^ (s.encryptBlock (chainAt f (s.initialChain ivs) s.input (j / 16)))[j % 16] := by
  have hkeeps : TurnKeepsLength f s.input.length := fun c x hx _ => by rw [hf]; exact xorKeystream_length _ hx
  obtain ⟨t, hexec, herr, holen, houtput, hchain, hivbuf⟩ := exec_completes hresult hi
  have holen' : t.olen = s.dlen := olen_of_runBlocks hkeeps holen
  refine ⟨t, hexec, herr, holen', by rw [hchain, hchained]; rfl, hivbuf, houtput, fun j hj => ?_⟩
  have hj' : j < s.input.length := by rwa [s.input_length]
  have hblock : j % 16 < (blockAt s.input (j / 16)).length := by rw [blockAt_length]; omega
  rw [← State.output_getD t j (by rwa [holen']) 0, houtput, runBlocks_getD _ _ hkeeps j hj', hf,
    xorKeystream_getD _ _ _ hblock (by omega) _ 0, ← getD_eq_blockAt, State.input_getD s j hj]

/-- Settles O24: CHAIN before a block is the output block before. -/
theorem encCfbCompletes : Obligations.EncCfbCompletes := by
  intro nopad ivs s hready
  obtain ⟨t, hexec, herr, holen, hchain, -, houtput, hbytes⟩ :=
    stream_completes ((encCfb_ok_iff (nopad := nopad)).mpr ⟨hready, rfl⟩) (fun _ _ => rfl) nofun rfl
  refine ⟨t, hexec, herr, holen, hchain, fun j hj => ?_⟩
  have hblock : 16 * (j / 16) ≤ s.input.length := by rw [s.input_length]; omega
  dsimp only
  rw [hbytes j hj, houtput,
    chainAt_of_output _ _ (cfbEncTurn_keeps _ _) (fun c _ => cfbEncTurn_next s.encryptBlock c) hblock]

/-- Settles O25: CHAIN before a block is the input block before. -/
theorem decCfbCompletes : Obligations.DecCfbCompletes := by
  intro nopad ivs s hready
  obtain ⟨t, hexec, herr, holen, hchain, -, -, hbytes⟩ :=
    stream_completes ((decCfb_ok_iff (nopad := nopad)).mpr ⟨hready, rfl⟩) (fun _ _ => rfl) nofun rfl
  refine ⟨t, hexec, herr, holen, hchain, fun j hj => ?_⟩
  have hblock : 16 * (j / 16) ≤ s.input.length := by rw [s.input_length]; omega
  dsimp only
  rw [hbytes j hj, chainAt_of_input _ _ (fun c _ => cfbDecTurn_next s.encryptBlock c) hblock]

/-- Settles O26: CHAIN before block k is E applied k times to the IV. -/
theorem ofbCompletes : Obligations.OfbCompletes := by
  intro nopad ivs s hready i hi
  obtain ⟨hne, hchained, hresult⟩ : i ≠ .expand ∧ usesChain i = true ∧
      commandResult i s = .ok (runBlocks (ofbTurn s.encryptBlock) (s.initialChain ivs) s.input) := by
    simp only [List.mem_cons, List.not_mem_nil, or_false] at hi
    obtain rfl | rfl := hi
    · exact ⟨nofun, rfl, encOfb_ok_iff.mpr ⟨hready, rfl⟩⟩
    · exact ⟨nofun, rfl, decOfb_ok_iff.mpr ⟨hready, rfl⟩⟩
  obtain ⟨t, hexec, herr, holen, hchain, -, -, hbytes⟩ := stream_completes hresult (fun _ _ => rfl) hne hchained
  refine ⟨t, hexec, herr, holen, hchain, fun j hj => ?_⟩
  rw [hbytes j hj, chainAt_ofbTurn, Function.iterate_succ_apply']

/-- Settles O27: CHAIN before block k is the counter, k increments on. -/
theorem ctrCompletes : Obligations.CtrCompletes := by
  intro nopad ivs s hready i hi
  obtain ⟨hne, hchained, hresult⟩ : i ≠ .expand ∧ usesChain i = true ∧
      commandResult i s = .ok (runBlocks (ctrTurn s.encryptBlock) (s.initialChain ivs) s.input) := by
    simp only [List.mem_cons, List.not_mem_nil, or_false] at hi
    obtain rfl | rfl := hi
    · exact ⟨nofun, rfl, encCtr_ok_iff.mpr ⟨hready, rfl⟩⟩
    · exact ⟨nofun, rfl, decCtr_ok_iff.mpr ⟨hready, rfl⟩⟩
  obtain ⟨t, hexec, herr, holen, hchain, hivbuf, -, hbytes⟩ := stream_completes hresult (fun _ _ => rfl) hne hchained
  refine ⟨t, hexec, herr, holen, hchain, hivbuf, fun j hj => ?_⟩
  exact ⟨_, counterValue_chainAt_ctrTurn _ s.input s.encryptBlock _, hbytes j hj⟩

end Sys2Proof.Machine
end

section
/-! PROOFS. A command and its inverse undo each other (spec/43_modes.md section 1, R159; 42_block_transform.md sections
3 and 4; 44_padding.md section 1): the turns of each mode undo each other in both directions, so the loops do, and the
second command's checks pass on the first one's result. -/

namespace Sys2Proof.Machine

/-! ## The turns undo each other -/

/-- The turn g gives back the input of the turn f and hands on the same CHAIN, on every block that a sequence of length
l has. -/
def TurnUndoes (g f : Block → List Byte → List Byte × Block) (l : Nat) : Prop :=
  ∀ c x, x.length ≤ 16 → (x.length = 16 ∨ l % 16 ≠ 0) → g c (f c x).1 = (x, (f c x).2)

/-- A turn that has to undo another on whole blocks only. -/
theorem TurnUndoes.of_full {g f : Block → List Byte → List Byte × Block} {l : Nat} (hl : l % 16 = 0)
    (h : ∀ c x, x.length = 16 → g c (f c x).1 = (x, (f c x).2)) : TurnUndoes g f l :=
  fun c x _ hx => h c x (hx.resolve_right (not_not.mpr hl))

section Turns

variable {e d : Block → Block} {l : Nat}

theorem ecbDecTurn_undoes (hde : ∀ b, d (e b) = b) (hl : l % 16 = 0) : TurnUndoes (ecbDecTurn d) (ecbEncTurn e) l :=
  .of_full hl fun c x hx => by simp only [ecbDecTurn, ecbEncTurn, blockOf_toList, hde, toList_blockOf hx]

theorem ecbEncTurn_undoes (hed : ∀ b, e (d b) = b) (hl : l % 16 = 0) : TurnUndoes (ecbEncTurn e) (ecbDecTurn d) l :=
  .of_full hl fun c x hx => by simp only [ecbDecTurn, ecbEncTurn, blockOf_toList, hed, toList_blockOf hx]

theorem cbcDecTurn_undoes (hde : ∀ b, d (e b) = b) (hl : l % 16 = 0) : TurnUndoes (cbcDecTurn d) (cbcEncTurn e) l :=
  .of_full hl fun c x hx => by
    simp only [cbcDecTurn, cbcEncTurn, blockOf_toList, hde, xorBlock_xorBlock_self, toList_blockOf hx]

theorem cbcEncTurn_undoes (hed : ∀ b, e (d b) = b) (hl : l % 16 = 0) : TurnUndoes (cbcEncTurn e) (cbcDecTurn d) l :=
  .of_full hl fun c x hx => by
    simp only [cbcDecTurn, cbcEncTurn, blockOf_toList, xorBlock_xorBlock_self, hed, toList_blockOf hx]

theorem cfbDecTurn_undoes : TurnUndoes (cfbDecTurn e) (cfbEncTurn e) l := fun c x hx _ => by
  simp only [cfbDecTurn, cfbEncTurn, xorKeystream_undoes _ hx, xorKeystream_length _ hx]

theorem cfbEncTurn_undoes : TurnUndoes (cfbEncTurn e) (cfbDecTurn e) l := fun c x hx _ => by
  simp only [cfbDecTurn, cfbEncTurn, xorKeystream_undoes _ hx, xorKeystream_length _ hx]

theorem ofbTurn_undoes : TurnUndoes (ofbTurn e) (ofbTurn e) l := fun c x hx _ => by
  simp only [ofbTurn, xorKeystream_undoes _ hx]

theorem ctrTurn_undoes : TurnUndoes (ctrTurn e) (ctrTurn e) l := fun c x hx _ => by
  simp only [ctrTurn, xorKeystream_undoes _ hx]

end Turns

/-! ## The second command -/

/-- The state u holds the bytes `out` as its input, within DIN, under the schedule and the IV of s. -/
structure FedWith (out : List Byte) (s u : State) : Prop where
  schedule : sameSchedule u s
  ivbuf : u.ivbuf = s.ivbuf
  ivlen : u.ivlen = s.ivlen
  input : u.input = out
  fits : u.dlen.toNat ≤ Config.dcap

namespace FedWith

variable {out : List Byte} {s u : State} (h : FedWith out s u)
include h

theorem dlen : u.dlen.toNat = out.length := by rw [← h.input, u.input_length]

theorem ksv (hs : s.ksv = true) : u.ksv = true := h.schedule.2.2.trans hs

theorem modeReady {ivs : Bool} (hs : s.modeReady ivs) : u.modeReady ivs :=
  ⟨h.ksv hs.1, h.fits, fun hivs => h.ivlen.trans (hs.2.2 hivs)⟩

theorem initialChain (ivs : Bool) : u.initialChain ivs = s.initialChain ivs := by
  rw [State.initialChain, State.initialChain, h.ivbuf]

theorem encryptBlock : u.encryptBlock = s.encryptBlock := encryptBlock_congr h.schedule

theorem decryptBlock : u.decryptBlock = s.decryptBlock := decryptBlock_congr h.schedule

/-- A loop over the first result gives the first loop's input back. -/
theorem undo {f g : Block → List Byte → List Byte × Block} {iv : Block} {d : List Byte} (hout : out = runBlocks f iv d)
    (hf : TurnKeepsLength f d.length) (hg : TurnUndoes g f d.length) : d = runBlocks g iv u.input := by
  rw [h.input, hout, runBlocks_undoes iv d hf hg]

end FedWith

theorem State.decryptBlock_encryptBlock (s : State) (b : Block) : s.decryptBlock (s.encryptBlock b) = b :=
  Sys2Proof.Machine.decryptBlock_encryptBlock s.rk s.nr.toNat b

theorem State.encryptBlock_decryptBlock (s : State) (b : Block) : s.encryptBlock (s.decryptBlock b) = b :=
  Sys2Proof.Machine.encryptBlock_decryptBlock s.rk s.nr.toNat b

/-- Padding put on and taken off again, or neither. -/
theorem unpadIf_padIf (padf : Bool) (d : List Byte) : unpadIf padf (padIf padf d) = .ok d := by
  cases padf
  · rfl
  · exact unpadBytes_padBytes d (by decide) (by decide)

theorem padIf_of_unpadIf {padf : Bool} {p out : List Byte} (h : unpadIf padf p = .ok out) : padIf padf out = p := by
  cases padf
  · cases h; rfl
  · exact padBytes_of_unpadBytes h

theorem input_length_of_dlen_eq {s : State} (h : s.dlen = 16) : s.input.length = 16 := by
  rw [s.input_length, h]
  rfl

namespace FedWith

variable {out : List Byte} {s u : State} (h : FedWith out s u)
  {f g : Block → List Byte → List Byte × Block} {iv : Block} {nopad : Bool}
include h

/-- The decryption of a whole, or padded, number of blocks: it passes the check of the length and gives the plaintext
back. -/
theorem decrypt (hout : out = runBlocks f iv (padIf (padFlag nopad) s.input))
    (haligned : nopad = true → s.dlen.toNat % 16 = 0) (hf : ∀ l, l % 16 = 0 → TurnKeepsLength f l)
    (hg : ∀ l, l % 16 = 0 → TurnUndoes g f l) :
    u.dlen.toNat % 16 = 0 ∧ unpadIf (padFlag nopad) (runBlocks g iv u.input) = .ok s.input := by
  have hl := padIf_aligned (nopad := nopad) (d := s.input) (by rwa [s.input_length])
  rw [← h.undo hout (hf _ hl) (hg _ hl), unpadIf_padIf]
  exact ⟨by rw [h.dlen, hout, runBlocks_length _ _ (hf _ hl), hl], rfl⟩

/-- The encryption of what a decryption gave, the padding put on again. -/
theorem encrypt (hunpad : unpadIf (padFlag nopad) (runBlocks f iv s.input) = .ok out)
    (haligned : s.dlen.toNat % 16 = 0) (hf : ∀ l, l % 16 = 0 → TurnKeepsLength f l)
    (hg : ∀ l, l % 16 = 0 → TurnUndoes g f l) :
    (nopad = true → u.dlen.toNat % 16 = 0) ∧ s.input = runBlocks g iv (padIf (padFlag nopad) u.input) := by
  rw [← s.input_length] at haligned
  have hpad := padIf_of_unpadIf hunpad
  refine ⟨fun hnopad => ?_, ?_⟩
  · subst hnopad
    rw [h.dlen, show out = runBlocks f iv s.input from hpad, runBlocks_length _ _ (hf _ haligned), haligned]
  · rw [h.input, hpad, runBlocks_undoes iv _ (hf _ haligned) (hg _ haligned)]

end FedWith

/-- The inverse command on the result of an encryption, or of PAD. -/
theorem commandResult_of_encryption {i j : Instr} {s u : State} {out : List Byte} (hij : inverseCommand i = some j)
    (hout : commandResult i s = .ok out) (h : FedWith out s u) : commandResult j u = .ok s.input := by
  cases i <;> cases hij
  case encb =>
    obtain ⟨hksv, h16, rfl⟩ := encb_ok_iff.mp hout
    refine decb_ok_iff.mpr ⟨h.ksv hksv, BitVec.eq_of_toNat_eq (h.dlen.trans Vector.length_toList), ?_⟩
    rw [h.input, blockOf_toList, h.decryptBlock, s.decryptBlock_encryptBlock,
      toList_blockOf (input_length_of_dlen_eq h16)]
  case encEcb nopad ivs =>
    obtain ⟨hksv, -, haligned, hout⟩ := encEcb_ok_iff.mp hout
    obtain ⟨haligned', hunpad⟩ := h.decrypt hout haligned (fun _ => ecbEncTurn_keeps _)
      fun _ => ecbDecTurn_undoes s.decryptBlock_encryptBlock
    exact decEcb_ok_iff.mpr ⟨h.ksv hksv, h.fits, haligned', by rwa [h.decryptBlock]⟩
  case encCbc nopad ivs =>
    obtain ⟨hready, haligned, hout⟩ := encCbc_ok_iff.mp hout
    obtain ⟨haligned', hunpad⟩ := h.decrypt hout haligned (fun _ => cbcEncTurn_keeps _)
      fun _ => cbcDecTurn_undoes s.decryptBlock_encryptBlock
    exact decCbc_ok_iff.mpr ⟨h.modeReady hready, haligned', by rwa [h.decryptBlock, h.initialChain]⟩
  case encCfb nopad ivs =>
    obtain ⟨hready, hout⟩ := encCfb_ok_iff.mp hout
    refine decCfb_ok_iff.mpr ⟨h.modeReady hready, ?_⟩
    rw [h.encryptBlock, h.initialChain]
    exact h.undo hout (cfbEncTurn_keeps _ _) cfbDecTurn_undoes
  case encOfb nopad ivs =>
    obtain ⟨hready, hout⟩ := encOfb_ok_iff.mp hout
    refine decOfb_ok_iff.mpr ⟨h.modeReady hready, ?_⟩
    rw [h.encryptBlock, h.initialChain]
    exact h.undo hout (ofbTurn_keeps _ _) ofbTurn_undoes
  case encCtr nopad ivs =>
    obtain ⟨hready, hout⟩ := encCtr_ok_iff.mp hout
    refine decCtr_ok_iff.mpr ⟨h.modeReady hready, ?_⟩
    rw [h.encryptBlock, h.initialChain]
    exact h.undo hout (ctrTurn_keeps _ _) ctrTurn_undoes
  case pad bs =>
    obtain ⟨-, rfl⟩ := pad_ok_iff.mp hout
    obtain ⟨hpos, hle⟩ := blockSize_bounds bs
    exact unpad_ok_iff.mpr ⟨h.fits, by rw [h.input, unpadBytes_padBytes _ hpos hle]⟩

/-- The command that a decryption, or UNPAD, undoes, on its result. -/
theorem commandResult_of_decryption {i j : Instr} {s u : State} {out : List Byte} (hij : inverseCommand i = some j)
    (hout : commandResult j s = .ok out) (h : FedWith out s u) : commandResult i u = .ok s.input := by
  cases i <;> cases hij
  case encb =>
    obtain ⟨hksv, h16, rfl⟩ := decb_ok_iff.mp hout
    refine encb_ok_iff.mpr ⟨h.ksv hksv, BitVec.eq_of_toNat_eq (h.dlen.trans Vector.length_toList), ?_⟩
    rw [h.input, blockOf_toList, h.encryptBlock, s.encryptBlock_decryptBlock,
      toList_blockOf (input_length_of_dlen_eq h16)]
  case encEcb nopad ivs =>
    obtain ⟨hksv, -, haligned, hunpad⟩ := decEcb_ok_iff.mp hout
    obtain ⟨haligned', hinput⟩ := h.encrypt hunpad haligned (fun _ => ecbDecTurn_keeps _)
      fun _ => ecbEncTurn_undoes s.encryptBlock_decryptBlock
    exact encEcb_ok_iff.mpr ⟨h.ksv hksv, h.fits, haligned', by rwa [h.encryptBlock]⟩
  case encCbc nopad ivs =>
    obtain ⟨hready, haligned, hunpad⟩ := decCbc_ok_iff.mp hout
    obtain ⟨haligned', hinput⟩ := h.encrypt hunpad haligned (fun _ => cbcDecTurn_keeps _)
      fun _ => cbcEncTurn_undoes s.encryptBlock_decryptBlock
    exact encCbc_ok_iff.mpr ⟨h.modeReady hready, haligned', by rwa [h.encryptBlock, h.initialChain]⟩
  case encCfb nopad ivs =>
    obtain ⟨hready, hout⟩ := decCfb_ok_iff.mp hout
    refine encCfb_ok_iff.mpr ⟨h.modeReady hready, ?_⟩
    rw [h.encryptBlock, h.initialChain]
    exact h.undo hout (cfbDecTurn_keeps _ _) cfbEncTurn_undoes
  case encOfb nopad ivs =>
    obtain ⟨hready, hout⟩ := decOfb_ok_iff.mp hout
    refine encOfb_ok_iff.mpr ⟨h.modeReady hready, ?_⟩
    rw [h.encryptBlock, h.initialChain]
    exact h.undo hout (ofbTurn_keeps _ _) ofbTurn_undoes
  case encCtr nopad ivs =>
    obtain ⟨hready, hout⟩ := decCtr_ok_iff.mp hout
    refine encCtr_ok_iff.mpr ⟨h.modeReady hready, ?_⟩
    rw [h.encryptBlock, h.initialChain]
    exact h.undo hout (ctrTurn_keeps _ _) ctrTurn_undoes
  case pad bs =>
    obtain ⟨-, hunpad⟩ := unpad_ok_iff.mp hout
    exact pad_ok_iff.mpr ⟨h.fits, by rw [h.input, padBytes_of_unpadBytes hunpad]⟩

/-- EXPAND undoes no command, and none undoes it. -/
theorem inverseCommand_ne_expand {i j : Instr} (h : inverseCommand i = some j) : i ≠ .expand ∧ j ≠ .expand := by
  cases i <;> cases h <;> exact ⟨nofun, nofun⟩

/-- The output of a command that succeeded, fed to a state with its schedule and IV. -/
theorem fedWith_of_exec {i : Instr} {s t u : State} (hi : i ≠ .expand) (h : exec i s = .next t) (herr : t.err = 0)
    (hschedule : sameSchedule u t) (hivbuf : u.ivbuf = t.ivbuf) (hivlen : u.ivlen = t.ivlen)
    (hfits : u.dlen.toNat ≤ Config.dcap) (hinput : u.input = t.output) :
    ∃ out, commandResult i s = .ok out ∧ FedWith out s u := by
  obtain ⟨out, hout, rfl⟩ := exec_ok_cases h herr
  obtain ⟨hrk, hnr, hksv⟩ := afterCommand_schedule i s out hi
  obtain ⟨hurk, hunr, huksv⟩ := hschedule
  exact ⟨out, hout, {
    schedule := ⟨hurk.trans hrk, hunr.trans hnr, huksv.trans hksv⟩
    ivbuf := hivbuf.trans (afterCommand_ivbuf ..)
    ivlen := hivlen.trans (afterCommand_ivlen ..)
    input := hinput.trans (afterCommand_output i s out hi (commandResult_length_lt hout))
    fits := hfits }⟩

/-- A command whose result is the input of s. -/
theorem exec_gives_input {j : Instr} {s u : State} (hj : j ≠ .expand) (h : commandResult j u = .ok s.input) :
    ∃ v, exec j u = .next v ∧ v.err = 0 ∧ v.olen = s.dlen ∧ v.output = s.input := by
  obtain ⟨v, hexec, herr, holen, houtput, -, -⟩ := exec_completes h hj
  exact ⟨v, hexec, herr, BitVec.eq_of_toNat_eq (holen.trans s.input_length), houtput⟩

/-- Settles O32: the inverse command's checks pass on the result, and its loop undoes the first command's. -/
theorem decryptionUndoesEncryption : Obligations.DecryptionUndoesEncryption := by
  intro i j s t u hij h herr hschedule hivbuf hivlen _ hfits hinput
  obtain ⟨hi, hj⟩ := inverseCommand_ne_expand hij
  obtain ⟨out, hout, hfed⟩ := fedWith_of_exec hi h herr hschedule hivbuf hivlen hfits hinput
  exact exec_gives_input hj (commandResult_of_encryption hij hout hfed)

/-- Settles O58: the same in the other direction. -/
theorem encryptionUndoesDecryption : Obligations.EncryptionUndoesDecryption := by
  intro i j s t u hij h herr hschedule hivbuf hivlen _ hfits hinput
  obtain ⟨hi, hj⟩ := inverseCommand_ne_expand hij
  obtain ⟨out, hout, hfed⟩ := fedWith_of_exec hj h herr hschedule hivbuf hivlen hfits hinput
  exact exec_gives_input hi (commandResult_of_decryption hij hout hfed)

end Sys2Proof.Machine
end

section
/-! PROOFS. A message cut into pieces (spec/70_reset_and_hazards.md section 3, R238), and commands that do the same
(spec/42_block_transform.md section 4, spec/43_modes.md section 1, spec/30_encoding.md section 2). -/

namespace Sys2Proof.Machine

/-! ## A message in pieces -/

/-- The result of a command, from what exec answered. -/
theorem commandResult_of_exec {i : Instr} {s t : State} (hi : i ≠ .expand) (h : exec i s = .next t) (herr : t.err = 0) :
    commandResult i s = .ok t.output := by
  obtain ⟨out, hout, rfl⟩ := exec_ok_cases h herr
  rw [hout, afterCommand_output i s out hi (commandResult_length_lt hout)]

/-- The command's results are those of a loop of f from IVBUF over its input. -/
def runsLoop (i : Instr) (f : (Block → Block) → Block → List Byte → List Byte × Block) : Prop :=
  ∀ (s : State) (out : List Byte), commandResult i s = .ok out → out = runBlocks (f s.encryptBlock) s.ivbuf s.input

/-- The loop over the whole message is the loop over the first piece and, from the CHAIN it ends with, over the
second. -/
theorem result_of_pieces {i : Instr} {f : (Block → Block) → Block → List Byte → List Byte × Block} (hf : runsLoop i f)
    {s s1 s2 : State} {out out1 out2 : List Byte} (hschedule1 : sameSchedule s1 s) (hschedule2 : sameSchedule s2 s)
    (hiv : s1.ivbuf = s.ivbuf) (hinput : s.input = s1.input ++ s2.input) (haligned : s1.dlen.toNat % 16 = 0)
    (h : commandResult i s = .ok out) (h1 : commandResult i s1 = .ok out1) (h2 : commandResult i s2 = .ok out2)
    (hchain : out1 = runBlocks (f s.encryptBlock) s.ivbuf s1.input →
      s2.ivbuf = chainAt (f s.encryptBlock) s.ivbuf s1.input (s1.input.length / 16)) :
    out = out1 ++ out2 := by
  have hout1 := hf s1 _ h1
  have hout2 := hf s2 _ h2
  rw [encryptBlock_congr hschedule1, hiv] at hout1
  rw [encryptBlock_congr hschedule2, hchain hout1] at hout2
  rw [hf s _ h, hinput, runBlocks_append _ _ _ (by rwa [s1.input_length]), hout1, hout2]

/-- The last block of the first piece's result is the CHAIN it ends with, in a mode that chains by its output. -/
theorem chainAt_end_of_output {f : Block → List Byte → List Byte × Block} {iv iv2 : Block} {s1 : State}
    {out1 : List Byte} (hkeeps : TurnKeepsLength f s1.input.length)
    (hnext : ∀ c x, x.length = 16 → (f c x).2 = blockOf (f c x).1)
    (haligned : s1.dlen.toNat % 16 = 0) (hpos : 0 < s1.dlen.toNat)
    (hiv2 : iv2 = blockOf (blockAt out1 (s1.dlen.toNat / 16 - 1))) (hout1 : out1 = runBlocks f iv s1.input) :
    iv2 = chainAt f iv s1.input (s1.input.length / 16) := by
  have hlast : s1.input.length / 16 ≠ 0 := by rw [s1.input_length]; omega
  rw [chainAt_of_output iv _ hkeeps hnext (by omega), if_neg hlast, s1.input_length, hiv2, hout1]

/-- Settles O57: what the host carries over is the CHAIN that the first piece ends with. -/
theorem messagesMayBeCutIntoPieces : Obligations.MessagesMayBeCutIntoPieces := by
  intro s s1 s2 t t1 t2 i hi hschedule1 hschedule2 hiv hinput haligned hpos h herr h1 herr1 h2 herr2 hcarry
  have hne : i ≠ .expand := by obtain rfl | rfl | rfl := hi <;> nofun
  have pieces := fun {f} (hf : runsLoop i f) => result_of_pieces hf hschedule1 hschedule2 hiv hinput haligned
    (commandResult_of_exec hne h herr) (commandResult_of_exec hne h1 herr1) (commandResult_of_exec hne h2 herr2)
  have hwhole : s1.input.length % 16 = 0 := by rwa [s1.input_length]
  obtain rfl | rfl | rfl := hi
  · exact pieces (fun s out hout => (encCbc_ok_iff.mp hout).2.2)
      (chainAt_end_of_output (cbcEncTurn_keeps _ hwhole) (fun c x _ => cbcEncTurn_next _ c x) haligned hpos hcarry)
  · exact pieces (fun s out hout => (encCfb_ok_iff.mp hout).2)
      (chainAt_end_of_output (cfbEncTurn_keeps _ _) (fun c _ => cfbEncTurn_next _ c) haligned hpos hcarry)
  · refine pieces (fun s out hout => (encCtr_ok_iff.mp hout).2) fun _ => counterValue_injective ?_
    rw [counterValue_chainAt_ctrTurn, s1.input_length]
    exact hcarry

/-! ## Commands that do the same -/

/-- Two commands with the same result, which treat CHAIN alike, do the same. -/
theorem exec_eq_of_result {i j : Instr} {s : State} (hresult : commandResult i s = commandResult j s)
    (hchain : usesChain i = usesChain j) (hi : i ≠ .expand) (hj : j ≠ .expand) : exec i s = exec j s := by
  have hafter : ∀ out, afterCommand i s out = afterCommand j s out := by
    intro out
    rw [afterCommand, afterCommand, if_neg hi, if_neg hj, hchain]
  simp only [exec_eq, hresult, hafter]

/-- The checks of CFB, OFB and CTR look at neither the direction nor the padding flag. -/
theorem prologue_stream_eq {m : Mode} (hecb : m ≠ .ecb) (hcbc : m ≠ .cbc) (d d' : Dir) (padf padf' ivs : Bool)
    (s : State) : prologue d m padf ivs s = prologue d' m padf' ivs s := by
  simp [prologue_eq, prologueChecks, hecb, hcbc]

/-- ECB does not look at IVS. -/
theorem prologue_ecb_eq (d : Dir) (padf ivs ivs' : Bool) (s : State) :
    prologue d .ecb padf ivs s = prologue d .ecb padf ivs' s := by
  simp [prologue_eq, prologueChecks, prologueChain]

/-- A supplied IV of 16 zero bytes passes its check and is the default (R151). -/
theorem prologue_zero_iv {s : State} (hivlen : s.ivlen = 16) (hivbuf : s.ivbuf = zeroBlock) (d : Dir) (m : Mode)
    (padf : Bool) : prologue d m padf true s = prologue d m padf false s := by
  simp [prologue_eq, prologueChecks, prologueChain, State.initialChain, ivCheck, hivlen, hivbuf]

/-- With DLEN = 16 the operands of a block command are those of NOPAD ECB: the input fits, and is whole blocks. -/
theorem prologue_ecb_of_one_block {s : State} (h : s.dlen = 16) (d : Dir) (ivs : Bool) :
    prologue d .ecb (padFlag true) ivs s = (blockOperand s).map fun b => (zeroBlock, b) := by
  have hfits : ¬Config.dcap < s.dlen.toNat := Nat.not_lt.mpr (le_dcap_of_dlen_eq h)
  have hmod : (s.dlen.toNat % 16 != 0) = false := by rw [h]; rfl
  have hone : (s.dlen != 16) = false := by simp [h]
  simp only [prologue_eq, blockOperand_eq, prologueChecks, firstFailing_cons, firstFailing_nil, inputCheck,
    scheduleCheck, ivCheck, lengthCheck, prologueChain, hfits, hmod, hone]
  cases s.ksv <;> simp <;> rfl

theorem runBlocks_one_block (f : Block → List Byte → List Byte × Block) (iv : Block) {d : List Byte}
    (h : d.length = 16) : runBlocks f iv d = (f iv d).1 := by
  have hne : d ≠ [] := by rintro rfl; simp at h
  rw [runBlocks_cons iv hne, List.drop_eq_nil_of_le h.le, runBlocks_nil, List.append_nil, List.take_of_length_le h.le]

/-- Settles O19: the operands are the same, and the loop over one block is one turn. -/
theorem blockCommandsAreOneBlockEcb : Obligations.BlockCommandsAreOneBlockEcb := by
  intro s ivs h
  have hinput := input_length_of_dlen_eq h
  constructor <;> refine exec_eq_of_result ?_ rfl nofun nofun <;>
    simp only [commandResult, prologue_ecb_of_one_block h] <;> cases hb : blockOperand s
  case left.error | right.error => rfl
  case left.ok b =>
    obtain rfl := (blockOperand_ok hb).1
    exact congrArg Except.ok ((runBlocks_one_block _ _ hinput).trans (ecbEncTurn_output _ _ _)).symm
  case right.ok b =>
    obtain rfl := (blockOperand_ok hb).1
    exact congrArg Except.ok ((runBlocks_one_block _ _ hinput).trans (ecbDecTurn_output _ _ _)).symm

/-- Settles O29: no check and no turn of OFB and CTR looks at the direction. -/
theorem symmetricModes : Obligations.SymmetricModes := by
  refine fun nopad ivs s => ⟨exec_eq_of_result ?_ rfl nofun nofun, exec_eq_of_result ?_ rfl nofun nofun⟩
  · simp only [commandResult, prologue_stream_eq (m := .ofb) nofun nofun .dec .enc _ (padFlag nopad)]
  · simp only [commandResult, prologue_stream_eq (m := .ctr) nofun nofun .dec .enc _ (padFlag nopad)]

/-- Settles O30: the checks do not look at the bit, and neither do the turns. -/
theorem dontCareBitsChangeNothing : Obligations.DontCareBitsChangeNothing := by
  intro b b' s
  have cfb := fun d ivs => prologue_stream_eq (m := .cfb) nofun nofun d d (padFlag b) (padFlag b') ivs s
  have ofb := fun d ivs => prologue_stream_eq (m := .ofb) nofun nofun d d (padFlag b) (padFlag b') ivs s
  have ctr := fun d ivs => prologue_stream_eq (m := .ctr) nofun nofun d d (padFlag b) (padFlag b') ivs s
  have ecb := fun d padf => prologue_ecb_eq d padf b b' s
  refine ⟨fun ivs => ⟨?_, ?_, ?_, ?_, ?_, ?_⟩, fun nopad => ⟨?_, ?_⟩⟩ <;> refine exec_eq_of_result ?_ rfl nofun nofun
  all_goals simp only [commandResult, cfb, ofb, ctr, ecb]

/-- Settles O31: the initial CHAIN, or the block size, is the same. -/
theorem defaultsEqualTheirValues : Obligations.DefaultsEqualTheirValues := by
  refine fun s => ⟨fun hivlen hivbuf nopad => ?_, rfl, rfl⟩
  have zeroIv := prologue_zero_iv hivlen hivbuf
  refine ⟨?_, ?_, ?_, ?_, ?_, ?_, ?_, ?_⟩ <;> refine exec_eq_of_result ?_ rfl nofun nofun
  all_goals simp only [commandResult, zeroIv]

end Sys2Proof.Machine
end
